-- ==== Sys2Proof/Word.lean ====
section
/-! DEFINITION. The word types of level_lut_remapper (spec/00_scope.md rules R5 and R6: bit 0 is the least
significant bit of every word). -/

namespace Sys2Proof

/-- One byte of memory, one table entry, one `LEVEL` output sample (R5, R52, R54). -/
abbrev Byte := BitVec 8

/-- A 16-bit grayscale sample: the input of `LEVEL`, the output of `UNPACK` (R5). -/
abbrev Sample := BitVec 16

/-- The value of a configuration register as a command carries it: 32 bits, narrower registers
zero-extended (R24, R94). -/
abbrev Word32 := BitVec 32

/-- A command word, format `C` (R90): an abstract 64-bit value with no byte order. -/
abbrev CommandWord := BitVec 64

/-- A response word, format `P` (R91). -/
abbrev ResponseWord := BitVec 64

end Sys2Proof
end

