-- ==== Sys2Proof/Syntax.lean ====
section
/-! DEFINITION. The six commands, one constructor per row of spec/opcode_table.json (spec/30_encoding.md rule R92). -/

namespace Sys2Proof

/-- A command of level_lut_remapper. The frame commands take no operand in the word: their geometry, parameters,
layout and buffers are the registers of their bank (R92). The register number of `WRREG` and `RDREG` is kept as the
8 bits of the word, because a number that names no register still executes, to an error response (R95, R99). -/
inductive Instr where
  /-- `WRREG reg, value`: write a configuration register (R120). -/
  | wrreg (reg : BitVec 8) (imm : Word32)
  /-- `RDREG reg`: read a configuration register (R121). -/
  | rdreg (reg : BitVec 8)
  /-- `RDLUT index`: read one entry of the level table (R122). -/
  | rdlut (index : BitVec 8)
  /-- `LUTBLD`: rebuild the table from the level registers (R147). -/
  | lutbld
  /-- `LEVEL`: remap one frame of 16-bit samples to 8-bit samples (R160). -/
  | level
  /-- `UNPACK`: expand one packed frame into 16-bit samples (R180). -/
  | unpack
deriving DecidableEq, Repr

end Sys2Proof
end

