-- ==== Sys2Proof/Decode.lean ====
section
/-! DEFINITION. Decoding and encoding of command words (spec/30_encoding.md rules R90, R92, R93, R96 to R99). Decoding
is total: every 64-bit word is one of the six shapes of R93 or is rejected by name. -/

namespace Sys2Proof

/-- `OP`, bits `[63:56]` of a command word (R90). -/
def CommandWord.op (w : CommandWord) : BitVec 8 := w.extractLsb' 56 8

/-- `REG`, bits `[55:48]` (R90). -/
def CommandWord.reg (w : CommandWord) : BitVec 8 := w.extractLsb' 48 8

/-- `Z`, bits `[47:32]`, must be zero (R90). -/
def CommandWord.z (w : CommandWord) : BitVec 16 := w.extractLsb' 32 16

/-- `IMM`, bits `[31:0]` (R90). -/
def CommandWord.imm (w : CommandWord) : BitVec 32 := w.extractLsb' 0 32

/-- The two ways a word is illegal (R96). Both end in `ILLEGAL_COMMAND`. -/
inductive Reject where
  /-- `OP` is one of the 250 unassigned values (R92). -/
  | unassignedOpcode
  /-- A must-be-zero field of R93 is not zero. -/
  | mustBeZero
deriving DecidableEq, Repr

/-- What a word decodes to. -/
inductive Decoded where
  /-- One of the six legal shapes of R93. -/
  | instr (i : Instr)
  /-- An illegal word (R96). -/
  | rejected (why : Reject)
deriving DecidableEq, Repr

/-- The decoder (R99 step 1; the opcodes of R92, the must-be-zero fields of R93, the operands of R94). -/
def decode (w : CommandWord) : Decoded :=
  if w.op = 0x01 then
    if w.z = 0 then .instr (.wrreg w.reg w.imm) else .rejected .mustBeZero
  else if w.op = 0x02 then
    if w.z = 0 ∧ w.imm = 0 then .instr (.rdreg w.reg) else .rejected .mustBeZero
  else if w.op = 0x03 then
    if w.reg = 0 ∧ w.z = 0 ∧ w.imm.extractLsb' 8 24 = 0 then .instr (.rdlut (w.imm.extractLsb' 0 8))
    else .rejected .mustBeZero
  else if w.op = 0x04 then
    if w.reg = 0 ∧ w.z = 0 ∧ w.imm = 0 then .instr .lutbld else .rejected .mustBeZero
  else if w.op = 0x10 then
    if w.reg = 0 ∧ w.z = 0 ∧ w.imm = 0 then .instr .level else .rejected .mustBeZero
  else if w.op = 0x11 then
    if w.reg = 0 ∧ w.z = 0 ∧ w.imm = 0 then .instr .unpack else .rejected .mustBeZero
  else .rejected .unassignedOpcode

/-- A command word from its four fields (R90). -/
def commandWord (op reg : BitVec 8) (imm : BitVec 32) : CommandWord := op ++ reg ++ 0#16 ++ imm

/-- The encoder: the exact words of R93. -/
def encode : Instr → CommandWord
  | .wrreg reg imm => commandWord 0x01 reg imm
  | .rdreg reg => commandWord 0x02 reg 0
  | .rdlut index => commandWord 0x03 0 (0#24 ++ index)
  | .lutbld => commandWord 0x04 0 0
  | .level => commandWord 0x10 0 0
  | .unpack => commandWord 0x11 0 0

/-- The command that the decoder reads from a word given as the opcode table numbers its bits: bit 0 is the least
significant bit of the one 64-bit word, and bits above `nbits` are 0. -/
def decodeTableWord (nbits w : Nat) : Option Instr :=
  if nbits ≤ 64 then
    match decode (BitVec.ofNat 64 (w % 2 ^ nbits)) with
    | .instr i => some i
    | .rejected _ => none
  else none

end Sys2Proof
end

