-- ==== Sys2Proof/Config.lean ====
section
/-! DEFINITION. The implementation parameters of spec/00_scope.md rule R5, each at the value this hardware takes.
The spec leaves no parameter open (spec/92_eei_decisions.md, its first paragraph), so there is no free value here. -/

namespace Sys2Proof.Config

/-- `LUT_SIZE` (R5): entries in the level table. -/
abbrev lutSize : Nat := 256

/-- `2^AW` with `AW = 32` (R5, R60): the number of bytes of the address space. -/
abbrev memorySize : Nat := 2 ^ 32

/-- `LP_FRAC` (R5, R25): fraction bits of a level parameter register. -/
abbrev levelFraction : Nat := 16

/-- `BIAS` (R5, R212): the constant added to a signed sample. -/
abbrev bias : Int := 32767

/-- `SCALE` (R5, R140): the multiplier that turns a normalized parameter into a byte. -/
abbrev scale : Nat := 255

/-- `STRIDE_ALIGN` (R5, R65): the granule of strides and of buffer bases, in bytes. -/
abbrev strideAlign : Nat := 4

/-- The byte that an address not listed in memory reads as. DESIGN CHOICE, unsafe: R262 leaves memory after reset
unspecified (notes/assumptions/1.md). -/
abbrev unlistedByte : Byte := 0

@[simp] theorem lutSize_eq : lutSize = 256 := rfl
@[simp] theorem memorySize_eq : memorySize = 4294967296 := rfl
@[simp] theorem levelFraction_eq : levelFraction = 16 := rfl
@[simp] theorem bias_eq : bias = 32767 := rfl
@[simp] theorem scale_eq : scale = 255 := rfl
@[simp] theorem strideAlign_eq : strideAlign = 4 := rfl

end Sys2Proof.Config
end

