-- ==== Sys2Proof/Machine/State.lean ====
section
/-! DEFINITION. The state of level_lut_remapper as plain data: the 27 configuration registers in their two banks, the
level table and the memory (spec/10_state.md rule R20), and beside them the two ports, as the list of what the host
still does and the list of the responses given so far (R8; the model's own fields, notes/assumptions/2.md). -/

namespace Sys2Proof.Machine

/-- Bank 0, the level kernel's registers, numbers `0x00` to `0x0C` (R24). -/
structure LevelRegs where
  /-- `LV_LOWIN` (R25). -/
  lowIn : BitVec 17
  /-- `LV_HIGHIN` (R26). -/
  highIn : BitVec 17
  /-- `LV_LOWOUT` (R27). -/
  lowOut : BitVec 17
  /-- `LV_HIGHOUT` (R28). -/
  highOut : BitVec 17
  /-- `LV_WIDTH` (R29). -/
  width : BitVec 32
  /-- `LV_HEIGHT` (R30). -/
  height : BitVec 32
  /-- `LV_INSTRIDE` (R31). -/
  inStride : BitVec 32
  /-- `LV_OUTSTRIDE` (R32). -/
  outStride : BitVec 32
  /-- `LV_FORMAT`: bit 0 `ENDIAN_IN`, bit 1 `SIGNED_IN` (R33). -/
  format : BitVec 2
  /-- `LV_SRCBASE` (R34). -/
  srcBase : BitVec 32
  /-- `LV_SRCSIZE` (R35). -/
  srcSize : BitVec 32
  /-- `LV_DSTBASE` (R36). -/
  dstBase : BitVec 32
  /-- `LV_DSTSIZE` (R37). -/
  dstSize : BitVec 32
deriving DecidableEq, Repr

/-- Bank 1, the unpack kernel's registers, numbers `0x10` to `0x1D` (R24). -/
structure UnpackRegs where
  /-- `UP_OFFSET`, the two's complement pattern of a signed 16-bit integer (R38). -/
  offset : BitVec 16
  /-- `UP_SHIFT` (R39). -/
  shift : BitVec 4
  /-- `UP_SWAP` (R40). -/
  swap : BitVec 1
  /-- `UP_LUMAMASK` (R41). -/
  lumaMask : BitVec 16
  /-- `UP_CHROMAMASK` (R42). -/
  chromaMask : BitVec 16
  /-- `UP_WIDTH` (R43). -/
  width : BitVec 32
  /-- `UP_HEIGHT` (R44). -/
  height : BitVec 32
  /-- `UP_INSTRIDE` (R45). -/
  inStride : BitVec 32
  /-- `UP_OUTSTRIDE` (R46). -/
  outStride : BitVec 32
  /-- `UP_LAYOUT`: 1 TenBitPacked, 2 InterleavedByte, any other value unrecognized (R47). -/
  layout : BitVec 32
  /-- `UP_SRCBASE` (R48). -/
  srcBase : BitVec 32
  /-- `UP_SRCSIZE` (R49). -/
  srcSize : BitVec 32
  /-- `UP_DSTBASE` (R50). -/
  dstBase : BitVec 32
  /-- `UP_DSTSIZE` (R51). -/
  dstSize : BitVec 32
deriving DecidableEq, Repr

/-- The names of the 27 configuration registers, in the order of the table of R24. -/
inductive Reg where
  | lvLowIn | lvHighIn | lvLowOut | lvHighOut
  | lvWidth | lvHeight | lvInStride | lvOutStride | lvFormat
  | lvSrcBase | lvSrcSize | lvDstBase | lvDstSize
  | upOffset | upShift | upSwap | upLumaMask | upChromaMask
  | upWidth | upHeight | upInStride | upOutStride | upLayout
  | upSrcBase | upSrcSize | upDstBase | upDstSize
deriving DecidableEq, Repr

/-- The level table `LUT`: 256 entries of 8 bits (R52). -/
abbrev Table := { entries : List Byte // entries.length = 256 }

/-- Memory: the bytes that differ from `Config.unlistedByte`, by strictly rising address (R54, R60). -/
abbrev Memory := List Host.Cell

/-- What the host does at the block's interface between two steps of the engine (R8, R70, R267): the host may issue
a command when the port is free, write a byte of memory between commands, or assert reset at any time. Reading
memory changes nothing in the machine and is no action. -/
inductive HostAction where
  /-- Issue one command word and wait for its response (R8, R90). -/
  | command (word : CommandWord)
  /-- Write one byte of memory between commands (R70, R265, R267). -/
  | writeByte (addr : BitVec 32) (value : Byte)
  /-- Assert reset between commands (R260). -/
  | reset
  /-- Issue a command word and assert reset while it is in flight, after its first `stores` memory writes (R260;
  spec/93_implementation_defined.md U9). -/
  | resetDuring (word : CommandWord) (stores : Nat)
deriving DecidableEq, Repr

/-- The whole machine. -/
structure State where
  /-- Bank 0 of the configuration registers (R24). -/
  lv : LevelRegs
  /-- Bank 1 of the configuration registers (R24). -/
  up : UnpackRegs
  /-- The level table (R52). -/
  lut : Table
  /-- The memory (R54). -/
  mem : Memory
  /-- The command and reset ports: what the host does next, first action first. The model's own field. -/
  host : List HostAction
  /-- The response port: every response word given so far, first response first (R91). The model's own field. -/
  responses : List ResponseWord
deriving DecidableEq, Repr

/-- Why a step can stop with a fault. -/
inductive Fault where
  /-- Raised by `Memory.memRead` and `Memory.memWrite` for an access that reaches address `2^32` or above, which R61
  leaves undefined because the validation of every frame command rules it out (R63). Safe: the machine stops where
  the spec gives no effect. No step from any state reaches it (the statement `EveryStepAnswersNextState`). -/
  | addressOutOfRange
deriving DecidableEq, Repr

/-- Why a step can be refused. -/
inductive Refusal where
  /-- Raised by an arm of `exec` whose command has no meaning yet. Safe. No arm raises it. -/
  | notModelled (mnemonic : String)
deriving DecidableEq, Repr

/-- The three outcomes of a step of this machine. -/
abbrev Result := Host.Outcome State Fault Refusal

/-- Bank 0 after reset: every register 0 (R24, R261). -/
def LevelRegs.reset : LevelRegs where
  lowIn := 0
  highIn := 0
  lowOut := 0
  highOut := 0
  width := 0
  height := 0
  inStride := 0
  outStride := 0
  format := 0
  srcBase := 0
  srcSize := 0
  dstBase := 0
  dstSize := 0

/-- Bank 1 after reset: every register 0 (R24, R261). -/
def UnpackRegs.reset : UnpackRegs where
  offset := 0
  shift := 0
  swap := 0
  lumaMask := 0
  chromaMask := 0
  width := 0
  height := 0
  inStride := 0
  outStride := 0
  layout := 0
  srcBase := 0
  srcSize := 0
  dstBase := 0
  dstSize := 0

/-- The table after reset: every entry 0 (R52, R261). -/
def Table.reset : Table := ⟨List.replicate 256 0, List.length_replicate⟩

/-- The machine right after reset (R261), with no memory byte listed (R262; notes/assumptions/1.md), no host action
pending and no response given. -/
def State.reset : State where
  lv := LevelRegs.reset
  up := UnpackRegs.reset
  lut := Table.reset
  mem := []
  host := []
  responses := []

end Sys2Proof.Machine
end

