-- ==== Sys2Proof/Machine/Flags.lean ====
section
/-! DEFINITION. The two static flags of the level kernel. The block has no status flags, condition codes or
predicates, and no command writes a flag (spec/10_state.md rule R23): the only flags are the two configuration bits of
`LV_FORMAT` (R33), which `LEVEL` reads once per command. -/

namespace Sys2Proof.Machine

/-- `ENDIAN_IN`, bit 0 of `LV_FORMAT`: true when the input samples are stored big-endian (R33). -/
def LevelRegs.endianIn (p : LevelRegs) : Bool := p.format.getLsbD 0

/-- `SIGNED_IN`, bit 1 of `LV_FORMAT`: true when the input samples are signed two's complement (R33). -/
def LevelRegs.signedIn (p : LevelRegs) : Bool := p.format.getLsbD 1

end Sys2Proof.Machine
end

