-- ==== Sys2Proof/Machine/Datapath.lean ====
section
/-! DEFINITION. The grayscale sample pipeline: what happens to one sample between the memory read and the memory write
(spec/44_grayscale_sample_pipeline.md), and the field extraction of the TenBitPacked layout (R185). -/

namespace Sys2Proof.Machine

/-- Stage L1, `Sample16(b0, b1, e)`: `b0` is the byte at the lower address; `e` is `ENDIAN_IN` (R210). -/
def sample16 (b0 b1 : Byte) (e : Bool) : Sample := if e then b0 ++ b1 else b1 ++ b0

/-- The byte swap of a 16-bit sample (R160, R210). -/
def byteSwap (s : Sample) : Sample := s.extractLsb' 0 8 ++ s.extractLsb' 8 8

/-- The biased value `t` of a signed sample: `max(sext_16(s) + 32767, 0)`, an exact integer (R212). -/
def signedBias (s : Sample) : Nat := (max (s.toInt + Config.bias) 0).toNat

/-- Stages L2 and L3, `LevelIndex(s, g)` with `g` the flag `SIGNED_IN`: the high byte of the sample when it is
unsigned (R211), the high byte of the biased value when it is signed (R212). -/
def levelIndex (s : Sample) (g : Bool) : Byte :=
  if g then BitVec.ofNat 8 (signedBias s >>> 8) else s.extractLsb' 8 8

/-- One entry of the table (R52). -/
def Table.read (t : Table) (i : Byte) : Byte :=
  t.val[i.toNat]'(by have h := i.isLt; have h' := t.property; omega)

/-- Stage L4, `LevelSample` of an assembled sample: the table entry of its index (R213). -/
def levelSample (p : LevelRegs) (lut : Table) (s : Sample) : Byte := lut.read (levelIndex s p.signedIn)

/-- The offset, sign-extended to the accumulator's width: `sext_16(UP_OFFSET)` (R38, R215). -/
def UnpackRegs.off (p : UnpackRegs) : Word32 := p.offset.signExtend 32

/-- The channels after stage U2: luma and chroma are exchanged when `UP_SWAP` is 1 (R40, R215). -/
def UnpackRegs.channels (p : UnpackRegs) (chroma luma : Word32) : Word32 × Word32 :=
  if p.swap = 1 then (luma, chroma) else (chroma, luma)

/-- The chroma term after stages U3 and U4 (R215, R219). -/
def UnpackRegs.chromaTerm (p : UnpackRegs) (chroma : Word32) : Word32 :=
  (chroma + p.off) &&& p.chromaMask.zeroExtend 32

/-- The luma term after stages U3 and U4 (R215, R219). -/
def UnpackRegs.lumaTerm (p : UnpackRegs) (luma : Word32) : Word32 :=
  (luma + p.off) &&& p.lumaMask.zeroExtend 32

/-- Stages U5 and U6: the 32-bit accumulator (R215, R218). -/
def UnpackRegs.accumulator (p : UnpackRegs) (chroma luma : Word32) : Word32 :=
  let ch := p.channels chroma luma
  p.chromaTerm ch.1 ||| (p.lumaTerm ch.2 <<< p.shift.toNat)

/-- `Combine(chroma, luma)`, stages U2 to U7: the low 16 bits of the accumulator (R215). The fields arrive
zero-extended (R214). -/
def combine (p : UnpackRegs) (chroma luma : Word32) : Sample := (p.accumulator chroma luma).extractLsb' 0 16

/-- Field `k` of a TenBitPacked word, `k = 0, 1, 2`: bits `[9:0]`, `[19:10]`, `[29:20]`, zero-extended. Bits `[31:30]`
belong to no field (R185, R214). -/
def tenBitField (w : Word32) (k : Nat) : Word32 := (w.extractLsb' (10 * k) 10).zeroExtend 32

/-- The pair `(chroma, luma)` of lane `k` of a group of two words: the six fields in order are alternately chroma and
luma (R185, R186). -/
def tenBitPair (w0 w1 : Word32) : Nat → Word32 × Word32
  | 0 => (tenBitField w0 0, tenBitField w0 1)
  | 1 => (tenBitField w0 2, tenBitField w1 0)
  | _ => (tenBitField w1 1, tenBitField w1 2)

/-- Lane `k` of a group: `Combine` of its pair and nothing else (R186). -/
def tenBitLane (p : UnpackRegs) (w0 w1 : Word32) (k : Nat) : Sample :=
  combine p (tenBitPair w0 w1 k).1 (tenBitPair w0 w1 k).2

end Sys2Proof.Machine
end

