-- ==== Sys2Proof/Machine/Memory.lean ====
section
/-! DEFINITION. The operations over memory (spec/20_memory.md rules R60 and R61): plain storage of `2^32` bytes, kept
in one canonical form. -/

namespace Sys2Proof.Machine

/-- The byte at an address: the listed one, or `Config.unlistedByte`. Reading has no side effect (R61). -/
def Memory.read : Memory → Nat → Byte
  | [], _ => Config.unlistedByte
  | (k, v) :: rest, a => if k = a then v else Memory.read rest a

/-- The memory with the byte at one address replaced, in canonical form again (R61: no other byte changes). -/
def Memory.write : Memory → Nat → Byte → Memory
  | [], a, v => if v = Config.unlistedByte then [] else [(a, v)]
  | (k, x) :: rest, a, v =>
    if a < k then
      if v = Config.unlistedByte then (k, x) :: rest else (a, v) :: (k, x) :: rest
    else if a = k then
      if v = Config.unlistedByte then rest else (a, v) :: rest
    else (k, x) :: Memory.write rest a v

/-- Canonical form from an address on: strictly rising addresses, all below `2^32`, no byte that an unlisted address
reads as. -/
def Memory.wfFrom : Nat → Memory → Bool
  | _, [] => true
  | lo, (k, v) :: rest =>
    decide (lo ≤ k) && decide (k < Config.memorySize) && decide (v ≠ Config.unlistedByte) &&
      Memory.wfFrom (k + 1) rest

/-- The memory is in canonical form. -/
def Memory.wf (m : Memory) : Bool := Memory.wfFrom 0 m

/-- The `n` bytes from `a` on, assembled little-endian: the sum of `mem[a+k] * 2^(8k)` (R61, R62). -/
def Memory.littleEndian (m : Memory) : Nat → Nat → Nat
  | _, 0 => 0
  | a, n + 1 => (m.read a).toNat + 256 * Memory.littleEndian m (a + 1) n

/-- The memory after `n` bytes of `v` are put at `a`, byte `a+k` receiving `v[8k+7:8k]` (R61, R62). -/
def Memory.putLittleEndian : Memory → Nat → Nat → Nat → Memory
  | m, _, 0, _ => m
  | m, a, n + 1, v => Memory.putLittleEndian (m.write a (BitVec.ofNat 8 v)) (a + 1) n (v / 256)

/-- `MemRead(a, n)`, defined only when `a + n <= 2^32` (R61). -/
def Memory.memRead (m : Memory) (a n : Nat) : Option Nat :=
  if a + n ≤ Config.memorySize then some (m.littleEndian a n) else none

/-- `MemWrite(a, n, v)`, defined only when `a + n <= 2^32` (R61). -/
def Memory.memWrite (m : Memory) (a n v : Nat) : Option Memory :=
  if a + n ≤ Config.memorySize then some (m.putLittleEndian a n v) else none

/-- One memory write of a frame command: `MemWrite(addr, width, value)` (R66). -/
structure Store where
  /-- The address of its first byte. -/
  addr : Nat
  /-- Its width in bytes: 1 for `LEVEL`, 2 for `UNPACK` (R66). -/
  width : Nat
  /-- The value written. -/
  value : Nat
deriving DecidableEq, Repr

/-- The addresses of the bytes a store writes. -/
def Store.addrs (w : Store) : List Nat := List.range' w.addr w.width

/-- The memory after a sequence of stores, first store first, or none if one is undefined (R61). -/
def Memory.replay : Memory → List Store → Option Memory
  | m, [] => some m
  | m, w :: rest =>
    match m.memWrite w.addr w.width w.value with
    | none => none
    | some m' => Memory.replay m' rest

end Sys2Proof.Machine
end

