-- ==== Sys2Proof/Machine/Ops.lean ====
section
/-! DEFINITION. The shared operations of the block: response words (spec/30_encoding.md rule R91), the errors and their
codes (spec/60_exceptions.md rules R230 to R233), answering a command, raising an error (R235, R236), taking the next
host action, and reset (spec/70_reset_and_hazards.md rules R260 to R262). -/

namespace Sys2Proof.Machine

/-- The causes of ConfigurationError (R232). -/
inductive ConfigurationCause where
  | illegalCommand
  | unknownRegister
  | operandRange
  | unknownLayout
  | widthNotMultipleOf3
  | strideNotMultipleOf4
  | strideTooSmall
  | baseMisaligned
  | bufferWraps
deriving DecidableEq, Repr

/-- The causes of PreconditionViolation (R233). -/
inductive PreconditionCause where
  | sourceTooSmall
  | destinationTooSmall
deriving DecidableEq, Repr

/-- The two kinds of error, each with its cause (R230). -/
inductive CommandError where
  | configuration (cause : ConfigurationCause)
  | precondition (cause : PreconditionCause)
deriving DecidableEq, Repr

/-- The detail code of a ConfigurationError (R232). -/
def ConfigurationCause.detail : ConfigurationCause → BitVec 32
  | .illegalCommand => 1
  | .unknownRegister => 2
  | .operandRange => 3
  | .unknownLayout => 4
  | .widthNotMultipleOf3 => 5
  | .strideNotMultipleOf4 => 6
  | .strideTooSmall => 7
  | .baseMisaligned => 8
  | .bufferWraps => 9

/-- The detail code of a PreconditionViolation (R233). -/
def PreconditionCause.detail : PreconditionCause → BitVec 32
  | .sourceTooSmall => 1
  | .destinationTooSmall => 2

/-- A response word: `STATUS[63:56]`, `Z[55:32] = 0`, `DATA[31:0]` (R91). -/
def responseWord (status : BitVec 8) (data : BitVec 32) : ResponseWord := status ++ 0#24 ++ data

/-- The response of a command that ends with status OK (R91, R231). -/
def okResponse (data : BitVec 32) : ResponseWord := responseWord 0x00 data

/-- The response of a command that ends with an error (R91, R231 to R233). -/
def CommandError.response : CommandError → ResponseWord
  | .configuration c => responseWord 0x01 c.detail
  | .precondition c => responseWord 0x02 c.detail

/-- The response word is given to the host (R68, R91). -/
def State.respond (s : State) (w : ResponseWord) : State := { s with responses := s.responses ++ [w] }

/-- `respond OK(data)`: end the command with status OK (R7). -/
def respondOk (data : BitVec 32) (s : State) : Result := .next (s.respond (okResponse data))

/-- `raise …`: end the command with the error's response and no other effect. Nothing is saved, no mode changes, and
the engine is ready for the next command (R7, R235, R236). -/
def raise (e : CommandError) (s : State) : Result := .next (s.respond e.response)

/-- The answer to an illegal word: ConfigurationError, detail `ILLEGAL_COMMAND` (R96). -/
def rejectWord (s : State) : Result := raise (.configuration .illegalCommand) s

/-- A list of tests, each with the error it raises: the first that fails, if any, decides (R234). -/
def firstFailure : List (Bool × CommandError) → Option CommandError
  | [] => none
  | (failed, e) :: rest => if failed then some e else firstFailure rest

/-- The next thing the host does, taken from the front of the ports' list, or none if the host does nothing further
(R8, R264, R269). -/
def State.fetch (s : State) : Option (HostAction × State) :=
  match s.host with
  | [] => none
  | a :: rest => some (a, { s with host := rest })

/-- The host writes one byte of memory between commands (R70, R267). -/
def State.hostWrite (s : State) (a : BitVec 32) (v : Byte) : State := { s with mem := s.mem.write a.toNat v }

/-- Reset: every register and every table entry 0 (R261). Memory is neither read nor written (R262). The responses
already given stay given, and the host's further actions are still to come. -/
def State.afterReset (s : State) : State :=
  { s with lv := LevelRegs.reset, up := UnpackRegs.reset, lut := Table.reset }

end Sys2Proof.Machine
end

