-- ==== Sys2Proof/Machine/Frame.lean ====
section
/-! DEFINITION. What the two frame commands share: the validation of geometry and buffers (spec/42_level_transform.md
rule R161, spec/43_packed_unpacker.md rule R182), element addresses (spec/20_memory.md rule R64), and the row and
column loop over memory in program order (R67). -/

namespace Sys2Proof.Machine

/-- The geometry and buffers of one frame command, as exact integers (R63). -/
structure FrameShape where
  /-- `H`, the number of rows. -/
  rows : Nat
  /-- `IS`, the input stride in bytes. -/
  inStride : Nat
  /-- `OS`, the output stride in bytes. -/
  outStride : Nat
  /-- `SB`. -/
  srcBase : Nat
  /-- `SS`. -/
  srcSize : Nat
  /-- `DB`. -/
  dstBase : Nat
  /-- `DS`. -/
  dstSize : Nat
  /-- The bytes of a source row that hold samples (R13). -/
  srcRowBytes : Nat
  /-- The bytes of a destination row that hold samples (R13). -/
  dstRowBytes : Nat
deriving DecidableEq, Repr

/-- The six tests that both frame commands make, in their order (R161; R182 tests 3 to 8). -/
def FrameShape.checks (f : FrameShape) : List (Bool × CommandError) :=
  [(decide (f.inStride % Config.strideAlign ≠ 0 ∨ f.outStride % Config.strideAlign ≠ 0),
      .configuration .strideNotMultipleOf4),
   (decide (f.inStride < f.srcRowBytes ∨ f.outStride < f.dstRowBytes), .configuration .strideTooSmall),
   (decide (f.srcBase % Config.strideAlign ≠ 0 ∨ f.dstBase % Config.strideAlign ≠ 0),
      .configuration .baseMisaligned),
   (decide (f.srcBase + f.srcSize > Config.memorySize ∨ f.dstBase + f.dstSize > Config.memorySize),
      .configuration .bufferWraps),
   (decide (f.rows * f.inStride > f.srcSize), .precondition .sourceTooSmall),
   (decide (f.rows * f.outStride > f.dstSize), .precondition .destinationTooSmall)]

/-- The address of element `j` of size `e` bytes in row `r`: `BASE + r * STRIDE + j * e` (R64). -/
def elementAddr (base stride r j e : Nat) : Nat := base + r * stride + j * e

/-- A frame command under way: the memory as its accesses have left it, and the writes it has made so far, first write
first (the hidden state of R55 as far as it can be observed, through the order of R67). -/
structure Transfer where
  mem : Memory
  stores : List Store
deriving DecidableEq, Repr

/-- `MemRead(a, n)` of a frame command (R61). -/
def Transfer.read (t : Transfer) (a n : Nat) : Option Nat := t.mem.memRead a n

/-- `MemWrite(a, n, v)` of a frame command, recorded as its latest write (R61, R66). -/
def Transfer.write (t : Transfer) (a n v : Nat) : Option Transfer :=
  match t.mem.memWrite a n v with
  | none => none
  | some m => some ⟨m, t.stores ++ [⟨a, n, v⟩]⟩

/-- `for i in 0 .. n-1`, in increasing order (R67). -/
def forRange (n : Nat) (body : Nat → Transfer → Option Transfer) (t : Transfer) : Option Transfer :=
  match n with
  | 0 => some t
  | k + 1 => (forRange k body t).bind (body k)

/-- The loop of a frame command: rows in increasing order from 0, and within a row its units (pixels or groups) in
increasing order from 0 (R67). -/
def frameLoop (rows units : Nat) (unit : Nat → Nat → Transfer → Option Transfer) (m : Memory) : Option Transfer :=
  forRange rows (fun r => forRange units (unit r)) ⟨m, []⟩

/-- The end of a frame command whose validation has passed: its memory is written and the response is OK (R68). -/
def finishFrame (t : Option Transfer) (s : State) : Result :=
  match t with
  | none => .fault .addressOutOfRange
  | some t => respondOk 0 { s with mem := t.mem }

end Sys2Proof.Machine
end

