-- ==== Sys2Proof/Machine/Level.lean ====
section
/-! DEFINITION. The level transform `LEVEL` (spec/42_level_transform.md). Its arguments are the registers of bank 0
and the table, read at the start of the command (R148, R161). -/

namespace Sys2Proof.Machine

/-- The geometry and buffers of `LEVEL`: source row bytes `2*W`, destination row bytes `W` (R160, R162). -/
def LevelRegs.shape (p : LevelRegs) : FrameShape where
  rows := p.height.toNat
  inStride := p.inStride.toNat
  outStride := p.outStride.toNat
  srcBase := p.srcBase.toNat
  srcSize := p.srcSize.toNat
  dstBase := p.dstBase.toNat
  dstSize := p.dstSize.toNat
  srcRowBytes := 2 * p.width.toNat
  dstRowBytes := p.width.toNat

/-- The validation of `LEVEL`: the first test that fails, if any (R161). -/
def levelCheck (p : LevelRegs) : Option CommandError := firstFailure p.shape.checks

/-- The address of source sample `(r, c)` (R162). -/
def LevelRegs.srcAddr (p : LevelRegs) (r c : Nat) : Nat := elementAddr p.srcBase.toNat p.inStride.toNat r c 2

/-- The address of destination sample `(r, c)` (R162). -/
def LevelRegs.dstAddr (p : LevelRegs) (r c : Nat) : Nat := elementAddr p.dstBase.toNat p.outStride.toNat r c 1

/-- The sample that `MemRead(a, 2)` gives, byte-swapped when `ENDIAN_IN` is 1 (R160, R210). -/
def LevelRegs.assemble (p : LevelRegs) (v : Nat) : Sample :=
  if p.endianIn then byteSwap (BitVec.ofNat 16 v) else BitVec.ofNat 16 v

/-- One pixel: read the 16-bit sample, then write its table entry (R160, R163). -/
def levelPixel (p : LevelRegs) (lut : Table) (r c : Nat) (t : Transfer) : Option Transfer :=
  match t.read (p.srcAddr r c) 2 with
  | none => none
  | some v => t.write (p.dstAddr r c) 1 (levelSample p lut (p.assemble v)).toNat

/-- The row and column loop of `LEVEL` (R160, R163). -/
def levelFrame (p : LevelRegs) (lut : Table) (m : Memory) : Option Transfer :=
  frameLoop p.height.toNat p.width.toNat (levelPixel p lut) m

/-- `LEVEL` (R160). -/
def execLevel (s : State) : Result :=
  match levelCheck s.lv with
  | some e => raise e s
  | none => finishFrame (levelFrame s.lv s.lut s.mem) s

end Sys2Proof.Machine
end

