-- ==== Sys2Proof/Machine/Unpack.lean ====
section
/-! DEFINITION. The packed video unpacker `UNPACK` in its two layouts (spec/43_packed_unpacker.md). Its arguments are
the registers of bank 1, read at the start of the command (R182). -/

namespace Sys2Proof.Machine

/-- `UP_LAYOUT` selects TenBitPacked (R47, R181). -/
def UnpackRegs.isTenBit (p : UnpackRegs) : Bool := p.layout == 1

/-- `UP_LAYOUT` selects InterleavedByte (R47, R181). -/
def UnpackRegs.isInterleaved (p : UnpackRegs) : Bool := p.layout == 2

/-- `RB`, the source row bytes: `8*(W/3)` for TenBitPacked, `2*W` for InterleavedByte (R182). -/
def UnpackRegs.srcRowBytes (p : UnpackRegs) : Nat :=
  if p.isTenBit then 8 * (p.width.toNat / 3) else 2 * p.width.toNat

/-- The geometry and buffers of `UNPACK` (R180, R182). -/
def UnpackRegs.shape (p : UnpackRegs) : FrameShape where
  rows := p.height.toNat
  inStride := p.inStride.toNat
  outStride := p.outStride.toNat
  srcBase := p.srcBase.toNat
  srcSize := p.srcSize.toNat
  dstBase := p.dstBase.toNat
  dstSize := p.dstSize.toNat
  srcRowBytes := p.srcRowBytes
  dstRowBytes := 2 * p.width.toNat

/-- The validation of `UNPACK`: the first test that fails, if any (R182). -/
def unpackCheck (p : UnpackRegs) : Option CommandError :=
  firstFailure
    ((!p.isTenBit && !p.isInterleaved, .configuration .unknownLayout) ::
     (p.isTenBit && decide (p.width.toNat % 3 ≠ 0), .configuration .widthNotMultipleOf3) ::
     p.shape.checks)

/-- The address of pair `c` of row `r` of an InterleavedByte source (R183). -/
def UnpackRegs.pairAddr (p : UnpackRegs) (r c : Nat) : Nat := elementAddr p.srcBase.toNat p.inStride.toNat r c 2

/-- The address of group `g` of row `r` of a TenBitPacked source (R185). -/
def UnpackRegs.groupAddr (p : UnpackRegs) (r g : Nat) : Nat := elementAddr p.srcBase.toNat p.inStride.toNat r g 8

/-- The address of destination sample `(r, c)` (R64, R189). -/
def UnpackRegs.dstAddr (p : UnpackRegs) (r c : Nat) : Nat := elementAddr p.dstBase.toNat p.outStride.toNat r c 2

/-- Stage U8, `Store16(addr, v)`: a little-endian 16-bit write (R216). -/
def Transfer.store16 (t : Transfer) (a : Nat) (v : Sample) : Option Transfer := t.write a 2 v.toNat

/-- One InterleavedByte pixel: the chroma byte, the luma byte, then the sample (R183, R184). -/
def interleavedPixel (p : UnpackRegs) (r c : Nat) (t : Transfer) : Option Transfer :=
  match t.read (p.pairAddr r c) 1, t.read (p.pairAddr r c + 1) 1 with
  | some chroma, some luma =>
    t.store16 (p.dstAddr r c) (combine p (BitVec.ofNat 32 chroma) (BitVec.ofNat 32 luma))
  | _, _ => none

/-- Lane `k` of group `g` of row `r` is written to column `3g + k` (R186, R187). -/
def tenBitStore (p : UnpackRegs) (r g : Nat) (w0 w1 : Word32) (k : Nat) (t : Transfer) : Option Transfer :=
  t.store16 (p.dstAddr r (3 * g + k)) (tenBitLane p w0 w1 k)

/-- One TenBitPacked group: both words are read before any of the three lanes is written (R187). -/
def tenBitGroup (p : UnpackRegs) (r g : Nat) (t : Transfer) : Option Transfer :=
  match t.read (p.groupAddr r g) 4, t.read (p.groupAddr r g + 4) 4 with
  | some v0, some v1 => forRange 3 (tenBitStore p r g (BitVec.ofNat 32 v0) (BitVec.ofNat 32 v1)) t
  | _, _ => none

/-- The loop of `UNPACK`: InterleavedByte over pixels (R184), TenBitPacked over groups (R187). -/
def unpackFrame (p : UnpackRegs) (m : Memory) : Option Transfer :=
  if p.isTenBit then frameLoop p.height.toNat (p.width.toNat / 3) (tenBitGroup p) m
  else frameLoop p.height.toNat p.width.toNat (interleavedPixel p) m

/-- `UNPACK` (R180). -/
def execUnpack (s : State) : Result :=
  match unpackCheck s.up with
  | some e => raise e s
  | none => finishFrame (unpackFrame s.up s.mem) s

end Sys2Proof.Machine
end

