-- ==== Sys2Proof/Machine/Abandon.lean ====
section
/-! DEFINITION. Reset while a command is in flight (spec/70_reset_and_hazards.md rule R260;
spec/93_implementation_defined.md U9): the command is abandoned, its response is never returned, and the writes it had
already made stay made. -/

namespace Sys2Proof.Machine

/-- The memory writes a command makes in a state, in program order: those of a frame command whose validation passes,
none for any other word (R60, R67, R236). -/
def commandStores (w : CommandWord) (s : State) : Option (List Store) :=
  match decode w with
  | .instr .level => if levelCheck s.lv = none then (levelFrame s.lv s.lut s.mem).map Transfer.stores else some []
  | .instr .unpack => if unpackCheck s.up = none then (unpackFrame s.up s.mem).map Transfer.stores else some []
  | .instr (.wrreg _ _) => some []
  | .instr (.rdreg _) => some []
  | .instr (.rdlut _) => some []
  | .instr .lutbld => some []
  | .rejected _ => some []

/-- The command `w` is issued and reset is asserted after the first `k` of its memory writes (R260). -/
def resetDuring (w : CommandWord) (k : Nat) (s : State) : Result :=
  match (commandStores w s).bind fun stores => s.mem.replay (stores.take k) with
  | none => .fault .addressOutOfRange
  | some m => .next { s.afterReset with mem := m }

end Sys2Proof.Machine
end

