-- ==== Sys2Proof/Machine/Registers.lean ====
section
/-! DEFINITION. The register table of spec/10_state.md rule R24: numbers, legal values and names. -/

namespace Sys2Proof.Machine

/-- Every register, in the order of the table of R24. -/
def Reg.all : List Reg :=
  [.lvLowIn, .lvHighIn, .lvLowOut, .lvHighOut, .lvWidth, .lvHeight, .lvInStride, .lvOutStride, .lvFormat,
   .lvSrcBase, .lvSrcSize, .lvDstBase, .lvDstSize,
   .upOffset, .upShift, .upSwap, .upLumaMask, .upChromaMask, .upWidth, .upHeight, .upInStride, .upOutStride,
   .upLayout, .upSrcBase, .upSrcSize, .upDstBase, .upDstSize]

/-- The register's number (R24, R25 to R51). -/
def Reg.number : Reg → BitVec 8
  | .lvLowIn => 0x00
  | .lvHighIn => 0x01
  | .lvLowOut => 0x02
  | .lvHighOut => 0x03
  | .lvWidth => 0x04
  | .lvHeight => 0x05
  | .lvInStride => 0x06
  | .lvOutStride => 0x07
  | .lvFormat => 0x08
  | .lvSrcBase => 0x09
  | .lvSrcSize => 0x0A
  | .lvDstBase => 0x0B
  | .lvDstSize => 0x0C
  | .upOffset => 0x10
  | .upShift => 0x11
  | .upSwap => 0x12
  | .upLumaMask => 0x13
  | .upChromaMask => 0x14
  | .upWidth => 0x15
  | .upHeight => 0x16
  | .upInStride => 0x17
  | .upOutStride => 0x18
  | .upLayout => 0x19
  | .upSrcBase => 0x1A
  | .upSrcSize => 0x1B
  | .upDstBase => 0x1C
  | .upDstSize => 0x1D

/-- The register a number names, or none: `0x0D .. 0x0F` and `0x1E .. 0xFF` name no register (R95). -/
def Reg.ofNumber (n : BitVec 8) : Option Reg :=
  Reg.all.find? fun r => r.number == n

/-- `maxlegal`, the upper end of the register's legal range (R24, R120). -/
def Reg.maxLegal : Reg → Nat
  | .lvLowIn | .lvHighIn | .lvLowOut | .lvHighOut => 65536
  | .lvFormat => 3
  | .upOffset | .upLumaMask | .upChromaMask => 0xFFFF
  | .upShift => 15
  | .upSwap => 1
  | .lvWidth | .lvHeight | .lvInStride | .lvOutStride | .lvSrcBase | .lvSrcSize | .lvDstBase | .lvDstSize
  | .upWidth | .upHeight | .upInStride | .upOutStride | .upLayout
  | .upSrcBase | .upSrcSize | .upDstBase | .upDstSize => 0xFFFFFFFF

/-- Whether an accepted write of the register rebuilds the table: registers `0x00` to `0x03` (R52, R123). -/
def Reg.rebuildsTable : Reg → Bool
  | .lvLowIn | .lvHighIn | .lvLowOut | .lvHighOut => true
  | .lvWidth | .lvHeight | .lvInStride | .lvOutStride | .lvFormat
  | .lvSrcBase | .lvSrcSize | .lvDstBase | .lvDstSize
  | .upOffset | .upShift | .upSwap | .upLumaMask | .upChromaMask
  | .upWidth | .upHeight | .upInStride | .upOutStride | .upLayout
  | .upSrcBase | .upSrcSize | .upDstBase | .upDstSize => false

/-- The register's name in the assembler (R24, R100). -/
def Reg.name : Reg → String
  | .lvLowIn => "LV_LOWIN"
  | .lvHighIn => "LV_HIGHIN"
  | .lvLowOut => "LV_LOWOUT"
  | .lvHighOut => "LV_HIGHOUT"
  | .lvWidth => "LV_WIDTH"
  | .lvHeight => "LV_HEIGHT"
  | .lvInStride => "LV_INSTRIDE"
  | .lvOutStride => "LV_OUTSTRIDE"
  | .lvFormat => "LV_FORMAT"
  | .lvSrcBase => "LV_SRCBASE"
  | .lvSrcSize => "LV_SRCSIZE"
  | .lvDstBase => "LV_DSTBASE"
  | .lvDstSize => "LV_DSTSIZE"
  | .upOffset => "UP_OFFSET"
  | .upShift => "UP_SHIFT"
  | .upSwap => "UP_SWAP"
  | .upLumaMask => "UP_LUMAMASK"
  | .upChromaMask => "UP_CHROMAMASK"
  | .upWidth => "UP_WIDTH"
  | .upHeight => "UP_HEIGHT"
  | .upInStride => "UP_INSTRIDE"
  | .upOutStride => "UP_OUTSTRIDE"
  | .upLayout => "UP_LAYOUT"
  | .upSrcBase => "UP_SRCBASE"
  | .upSrcSize => "UP_SRCSIZE"
  | .upDstBase => "UP_DSTBASE"
  | .upDstSize => "UP_DSTSIZE"

end Sys2Proof.Machine
end

