-- ==== Sys2Proof/Machine/Table.lean ====
section
/-! DEFINITION. The level table builder `BuildLUT` (spec/41_level_lut.md rules R140 to R146), in exact integers. -/

namespace Sys2Proof.Machine

/-- The level byte of a level register value: `(k * 255) >> 16` (R140). -/
def byte255 (k : Nat) : Nat := (k * Config.scale) >>> Config.levelFraction

/-- Entry `i` of `BuildLUT(a, b, p, q)` as an exact integer: clamp low, ramp, clamp high, tested in that order (R143,
R144). The ramp term is truncated toward zero (R145), and the slope is taken from the register values, not from the
level bytes (R141). -/
def lutEntryExact (a b p q i : Nat) : Int :=
  if i < byte255 a then (byte255 p : Int)
  else if i < byte255 b then
    (byte255 p : Int) + Int.tdiv (((i : Int) - (byte255 a : Int)) * ((q : Int) - (p : Int))) ((b : Int) - (a : Int))
  else (byte255 q : Int)

/-- Entry `i` as the 8 bits the table holds (R52; R146 says that no legal argument needs more). -/
def lutEntry (a b p q i : Nat) : Byte := BitVec.ofInt 8 (lutEntryExact a b p q i)

/-- `BuildLUT(a, b, p, q)` (R143). -/
def buildLut (a b p q : Nat) : Table :=
  ⟨(List.range Config.lutSize).map (lutEntry a b p q), by simp⟩

/-- The table the four level registers call for (R53). -/
def LevelRegs.table (p : LevelRegs) : Table :=
  buildLut p.lowIn.toNat p.highIn.toNat p.lowOut.toNat p.highOut.toNat

end Sys2Proof.Machine
end

