-- ==== Sys2Proof/Machine/Operands.lean ====
section
/-! DEFINITION. Reading and writing the configuration registers by name (spec/10_state.md rule R24): a register
narrower than 32 bits reads as its value zero-extended, and a write stores the operand in the register's width (R94).
-/

namespace Sys2Proof.Machine

/-- `CFG[r]`, zero-extended to 32 bits (R24, R121). -/
def State.readReg (s : State) : Reg → Word32
  | .lvLowIn => s.lv.lowIn.setWidth 32
  | .lvHighIn => s.lv.highIn.setWidth 32
  | .lvLowOut => s.lv.lowOut.setWidth 32
  | .lvHighOut => s.lv.highOut.setWidth 32
  | .lvWidth => s.lv.width
  | .lvHeight => s.lv.height
  | .lvInStride => s.lv.inStride
  | .lvOutStride => s.lv.outStride
  | .lvFormat => s.lv.format.setWidth 32
  | .lvSrcBase => s.lv.srcBase
  | .lvSrcSize => s.lv.srcSize
  | .lvDstBase => s.lv.dstBase
  | .lvDstSize => s.lv.dstSize
  | .upOffset => s.up.offset.setWidth 32
  | .upShift => s.up.shift.setWidth 32
  | .upSwap => s.up.swap.setWidth 32
  | .upLumaMask => s.up.lumaMask.setWidth 32
  | .upChromaMask => s.up.chromaMask.setWidth 32
  | .upWidth => s.up.width
  | .upHeight => s.up.height
  | .upInStride => s.up.inStride
  | .upOutStride => s.up.outStride
  | .upLayout => s.up.layout
  | .upSrcBase => s.up.srcBase
  | .upSrcSize => s.up.srcSize
  | .upDstBase => s.up.dstBase
  | .upDstSize => s.up.dstSize

/-- `CFG[r] <- v`: the register alone, without the rebuild that a level parameter's write brings (R94, R120). -/
def State.writeReg (s : State) (r : Reg) (v : Word32) : State :=
  match r with
  | .lvLowIn => { s with lv := { s.lv with lowIn := v.setWidth 17 } }
  | .lvHighIn => { s with lv := { s.lv with highIn := v.setWidth 17 } }
  | .lvLowOut => { s with lv := { s.lv with lowOut := v.setWidth 17 } }
  | .lvHighOut => { s with lv := { s.lv with highOut := v.setWidth 17 } }
  | .lvWidth => { s with lv := { s.lv with width := v } }
  | .lvHeight => { s with lv := { s.lv with height := v } }
  | .lvInStride => { s with lv := { s.lv with inStride := v } }
  | .lvOutStride => { s with lv := { s.lv with outStride := v } }
  | .lvFormat => { s with lv := { s.lv with format := v.setWidth 2 } }
  | .lvSrcBase => { s with lv := { s.lv with srcBase := v } }
  | .lvSrcSize => { s with lv := { s.lv with srcSize := v } }
  | .lvDstBase => { s with lv := { s.lv with dstBase := v } }
  | .lvDstSize => { s with lv := { s.lv with dstSize := v } }
  | .upOffset => { s with up := { s.up with offset := v.setWidth 16 } }
  | .upShift => { s with up := { s.up with shift := v.setWidth 4 } }
  | .upSwap => { s with up := { s.up with swap := v.setWidth 1 } }
  | .upLumaMask => { s with up := { s.up with lumaMask := v.setWidth 16 } }
  | .upChromaMask => { s with up := { s.up with chromaMask := v.setWidth 16 } }
  | .upWidth => { s with up := { s.up with width := v } }
  | .upHeight => { s with up := { s.up with height := v } }
  | .upInStride => { s with up := { s.up with inStride := v } }
  | .upOutStride => { s with up := { s.up with outStride := v } }
  | .upLayout => { s with up := { s.up with layout := v } }
  | .upSrcBase => { s with up := { s.up with srcBase := v } }
  | .upSrcSize => { s with up := { s.up with srcSize := v } }
  | .upDstBase => { s with up := { s.up with dstBase := v } }
  | .upDstSize => { s with up := { s.up with dstSize := v } }

/-- `LUT <- BuildLUT` of the four level registers as they stand (R123, R147). -/
def State.rebuildLut (s : State) : State := { s with lut := s.lv.table }

end Sys2Proof.Machine
end

