-- ==== Sys2Proof/Machine/Configure.lean ====
section
/-! DEFINITION. The configuration commands `WRREG`, `RDREG`, `RDLUT` (spec/40_config_commands.md). Their must-be-zero
tests are the decoder's. None of them accesses memory. -/

namespace Sys2Proof.Machine

/-- The effect of an accepted `WRREG`: the register is written and, for a level parameter, the whole table is rebuilt
from the registers as they stand after the write (R120, R123, R124). -/
def State.configure (s : State) (r : Reg) (v : Word32) : State :=
  if r.rebuildsTable then (s.writeReg r v).rebuildLut else s.writeReg r v

/-- `WRREG reg, value` (R120). -/
def execWrreg (reg : BitVec 8) (imm : Word32) (s : State) : Result :=
  match Reg.ofNumber reg with
  | none => raise (.configuration .unknownRegister) s
  | some r =>
    if imm.toNat > r.maxLegal then raise (.configuration .operandRange) s
    else respondOk 0 (s.configure r imm)

/-- `RDREG reg` (R121). -/
def execRdreg (reg : BitVec 8) (s : State) : Result :=
  match Reg.ofNumber reg with
  | none => raise (.configuration .unknownRegister) s
  | some r => respondOk (s.readReg r) s

/-- `RDLUT index` (R122). -/
def execRdlut (index : BitVec 8) (s : State) : Result := respondOk ((s.lut.read index).setWidth 32) s

end Sys2Proof.Machine
end

