-- ==== Sys2Proof/Machine/LutBuild.lean ====
section
/-! DEFINITION. The command `LUTBLD` (spec/41_level_lut.md rule R147). -/

namespace Sys2Proof.Machine

/-- `LUTBLD`: rebuild the table from the current level registers. It has no error of its own (R147). -/
def execLutbld (s : State) : Result := respondOk 0 s.rebuildLut

end Sys2Proof.Machine
end

