-- ==== Sys2Proof/Machine/Dispatch.lean ====
section
/-! DEFINITION. The meaning of each command (spec/30_encoding.md rule R92), one arm per constructor. -/

namespace Sys2Proof.Machine

def exec (i : Instr) (s : State) : Host.Outcome State Fault Refusal :=
  match i with
  | .wrreg reg imm => Sys2Proof.Machine.execWrreg reg imm s
  | .rdreg reg => Sys2Proof.Machine.execRdreg reg s
  | .rdlut index => Sys2Proof.Machine.execRdlut index s
  | .lutbld => Sys2Proof.Machine.execLutbld s
  | .level => Sys2Proof.Machine.execLevel s
  | .unpack => Sys2Proof.Machine.execUnpack s

end Sys2Proof.Machine
end

