-- ==== Sys2Proof/Machine/Step.lean ====
section
/-! DEFINITION. One step of the machine: the next action of the host is taken and, when it is a command, executed to
completion (spec/00_scope.md rule R8; spec/70_reset_and_hazards.md rule R268: each command is one atomic step). -/

namespace Sys2Proof.Machine

/-- One command word, from issue to response: a legal word executes, an illegal one is answered with
`ILLEGAL_COMMAND` (R96, R99). -/
def runCommand (w : CommandWord) (s : State) : Result :=
  match decode w with
  | .instr i => exec i s
  | .rejected _ => rejectWord s

/-- One step. While the host does nothing further the engine waits and nothing changes (R243, R269;
notes/assumptions/3.md). -/
def step (s : State) : Host.Outcome State Fault Refusal :=
  match s.fetch with
  | none => .next s
  | some (.command w, s') => runCommand w s'
  | some (.writeByte a v, s') => .next (s'.hostWrite a v)
  | some (.reset, s') => .next s'.afterReset
  | some (.resetDuring w k, s') => resetDuring w k s'

/-- The state in which the host's next action is to issue the word `w`, numbered as the opcode table numbers its bits:
commands come from the host alone, one at a time (R8, R22, R72). -/
def State.withFetchWord (s : State) (nbits w : Nat) : State :=
  { s with host := .command (BitVec.ofNat 64 (w % 2 ^ nbits)) :: s.host }

end Sys2Proof.Machine
end

