-- ==== Sys2Proof/Machine/Assembler.lean ====
section
/-! DEFINITION. The assembler and the pseudo-instructions (spec/30_encoding.md rules R100 and R101): one line of text
to the commands it stands for, in order. The machine never uses it; it is the notation in which a host's sequence of
commands is written (notes/assumptions/7.md). -/

namespace Sys2Proof.Machine

/-- A line of assembler text, character by character. -/
abbrev Text := List Char

/-- A blank between tokens. -/
def isBlank (c : Char) : Bool := c == ' ' || c == '\t'

/-- The text without blanks at either end. -/
def trim (t : Text) : Text := ((t.dropWhile isBlank).reverse.dropWhile isBlank).reverse

/-- The text cut at every occurrence of a separator. -/
def splitAtEach (sep : Char) : Text → List Text
  | [] => [[]]
  | c :: rest =>
    if c == sep then [] :: splitAtEach sep rest
    else
      match splitAtEach sep rest with
      | [] => [[c]]
      | first :: more => (c :: first) :: more

/-- The value of a digit, in bases up to 16. -/
def digitValue (c : Char) : Option Nat :=
  let n := c.toNat
  if 48 ≤ n ∧ n ≤ 57 then some (n - 48)
  else if 97 ≤ n ∧ n ≤ 102 then some (n - 87)
  else if 65 ≤ n ∧ n ≤ 70 then some (n - 55)
  else none

/-- A numeral's digits in a base, most significant first, onto a value read so far. -/
def digits (base : Nat) : Text → Nat → Option Nat
  | [], acc => some acc
  | c :: rest, acc =>
    match digitValue c with
    | none => none
    | some d => if d < base then digits base rest (base * acc + d) else none

/-- A value is decimal, or hexadecimal with `0x` (R100). -/
def numeral : Text → Option Nat
  | [] => none
  | ['0', 'x'] => none
  | '0' :: 'x' :: ds => digits 16 ds 0
  | ds => digits 10 ds 0

/-- A register is written by its name (R100). -/
def registerNamed (t : Text) : Option Reg := Reg.all.find? fun r => r.name.toList == t

/-- The symbolic values, each for the register it belongs to (R100). -/
def symbol (r : Reg) (t : Text) : Option Nat :=
  if r = .upLayout then
    if t = "TENBIT".toList then some 1 else if t = "INTERLEAVED".toList then some 2 else none
  else if r = .lvFormat then
    if t = "LE".toList then some 0 else if t = "BE".toList then some 1
    else if t = "SIGNED".toList then some 2 else if t = "UNSIGNED".toList then some 0 else none
  else none

/-- One term of a value: a symbol of the register, or a numeral. -/
def term (r : Reg) (t : Text) : Option Nat :=
  match symbol r t with
  | some n => some n
  | none => numeral t

/-- The terms of `LV_FORMAT`, combined with `|` (R100). -/
def combineTerms (r : Reg) : List Text → Option Nat
  | [] => some 0
  | t :: rest =>
    match term r (trim t), combineTerms r rest with
    | some a, some b => some (a ||| b)
    | _, _ => none

/-- The operand of `WRREG r`: a value that fits 32 bits. A negative value is accepted only for `UP_OFFSET` and is
assembled as `value + 0x10000` (R94, R100). -/
def operandOf (r : Reg) (t : Text) : Option Word32 :=
  let value : Option Nat :=
    match t with
    | '-' :: ds =>
      if r = .upOffset then
        match numeral ds with
        | some n => if 1 ≤ n ∧ n ≤ 32768 then some (0x10000 - n) else none
        | none => none
      else none
    | _ => if r = .lvFormat then combineTerms r (splitAtEach '|' t) else term r t
  match value with
  | some n => if n < 2 ^ 32 then some (BitVec.ofNat 32 n) else none
  | none => none

/-- The registers that a pseudo-instruction writes, in the order of its operands (R101). -/
def pseudoRegs (mnemonic : Text) : Option (List Reg) :=
  if mnemonic = "SETLEVELS".toList then some [.lvLowIn, .lvHighIn, .lvLowOut, .lvHighOut]
  else if mnemonic = "LVGEOM".toList then some [.lvWidth, .lvHeight, .lvInStride, .lvOutStride, .lvFormat]
  else if mnemonic = "LVBUF".toList then some [.lvSrcBase, .lvSrcSize, .lvDstBase, .lvDstSize]
  else if mnemonic = "SETUNPACK".toList then some [.upOffset, .upShift, .upSwap, .upLumaMask, .upChromaMask]
  else if mnemonic = "UPGEOM".toList then some [.upWidth, .upHeight, .upInStride, .upOutStride, .upLayout]
  else if mnemonic = "UPBUF".toList then some [.upSrcBase, .upSrcSize, .upDstBase, .upDstSize]
  else none

/-- The `WRREG` commands of a pseudo-instruction, one per register (R101). -/
def expandWrites : List Reg → List Text → Option (List Instr)
  | [], [] => some []
  | r :: rs, t :: ts =>
    match operandOf r t, expandWrites rs ts with
    | some v, some rest => some (.wrreg r.number v :: rest)
    | _, _ => none
  | _, _ => none

/-- One command or pseudo-instruction from its mnemonic and its operands (R100, R101). -/
def assembleForm (mnemonic : Text) (operands : List Text) : Option (List Instr) :=
  if mnemonic = "WRREG".toList then
    match operands with
    | [reg, value] =>
      match registerNamed reg with
      | some r => (operandOf r value).map fun v => [.wrreg r.number v]
      | none => none
    | _ => none
  else if mnemonic = "RDREG".toList then
    match operands with
    | [reg] => (registerNamed reg).map fun r => [.rdreg r.number]
    | _ => none
  else if mnemonic = "RDLUT".toList then
    match operands with
    | [index] =>
      match numeral index with
      | some n => if n ≤ 255 then some [.rdlut (BitVec.ofNat 8 n)] else none
      | none => none
    | _ => none
  else if mnemonic = "LUTBLD".toList then if operands = [] then some [.lutbld] else none
  else if mnemonic = "LEVEL".toList then if operands = [] then some [.level] else none
  else if mnemonic = "UNPACK".toList then if operands = [] then some [.unpack] else none
  else
    match pseudoRegs mnemonic with
    | some regs => expandWrites regs operands
    | none => none

/-- One line: `#` starts a comment, a line of blanks stands for no command, and operands are separated by a comma
(R100). -/
def assembleLine (line : Text) : Option (List Instr) :=
  let code := trim (line.takeWhile fun c => c != '#')
  let mnemonic := code.takeWhile fun c => !isBlank c
  let rest := trim (code.dropWhile fun c => !isBlank c)
  if code = [] then some []
  else assembleForm mnemonic (if rest = [] then [] else (splitAtEach ',' rest).map trim)

/-- The command words of a text, line by line (R100: one command per line). -/
def assemble : List Text → Option (List CommandWord)
  | [] => some []
  | line :: rest =>
    match assembleLine line, assemble rest with
    | some is, some ws => some (is.map encode ++ ws)
    | _, _ => none

end Sys2Proof.Machine
end

