-- ==== Sys2Proof/Safety.lean ====
section
/-! DEFINITION. What the statements about the machine speak of: the invariant that every step keeps, and the terms in
which a frame's buffers are described. -/

namespace Sys2Proof.Machine

/-- Every level register holds a legal value: 65537 .. 131071 can never be held (R24, R25 to R28). The other
registers' legal ranges are their widths. -/
def LevelRegs.Legal (p : LevelRegs) : Prop :=
  p.lowIn.toNat ≤ 65536 ∧ p.highIn.toNat ≤ 65536 ∧ p.lowOut.toNat ≤ 65536 ∧ p.highOut.toNat ≤ 65536

/-- The invariant: registers legal (R24), the table is the one the level registers call for (R53), and the memory is
in its canonical form with every address inside the `2^32` bytes (R54). -/
structure State.Inv (s : State) : Prop where
  legal : s.lv.Legal
  table : s.lut = s.lv.table
  memory : s.mem.wf = true

/-- A frame whose six common tests all pass, in the terms of R161 and of tests 3 to 8 of R182. -/
structure FrameShape.Valid (f : FrameShape) : Prop where
  inStrideAligned : f.inStride % 4 = 0
  outStrideAligned : f.outStride % 4 = 0
  inStrideFits : f.srcRowBytes ≤ f.inStride
  outStrideFits : f.dstRowBytes ≤ f.outStride
  srcAligned : f.srcBase % 4 = 0
  dstAligned : f.dstBase % 4 = 0
  srcInSpace : f.srcBase + f.srcSize ≤ 2 ^ 32
  dstInSpace : f.dstBase + f.dstSize ≤ 2 ^ 32
  srcLarge : f.rows * f.inStride ≤ f.srcSize
  dstLarge : f.rows * f.outStride ≤ f.dstSize

/-- The bytes a frame covers in its two buffers do not meet (R69, R163). -/
def FrameShape.Disjoint (f : FrameShape) : Prop :=
  f.srcBase + f.rows * f.inStride ≤ f.dstBase ∨ f.dstBase + f.rows * f.outStride ≤ f.srcBase

/-- The frame is transformed in place: one buffer, one stride (R69). -/
def FrameShape.InPlace (f : FrameShape) : Prop := f.dstBase = f.srcBase ∧ f.outStride = f.inStride

/-- Every frame that `LEVEL` accepts (R161). -/
def LevelRegs.Accepts (p : LevelRegs) : Prop := p.shape.Valid

/-- Every frame that `UNPACK` accepts in the InterleavedByte layout (R182). -/
def UnpackRegs.AcceptsInterleaved (p : UnpackRegs) : Prop := p.layout = 2 ∧ p.shape.Valid

/-- Every frame that `UNPACK` accepts in the TenBitPacked layout (R182). -/
def UnpackRegs.AcceptsTenBit (p : UnpackRegs) : Prop := p.layout = 1 ∧ p.width.toNat % 3 = 0 ∧ p.shape.Valid

end Sys2Proof.Machine
end

