-- ==== Sys2Proof/Certificates/Slice0/Obligations.lean ====
section
/-! DEFINITION. The statements for the provers, in the order of OBLIGATIONS.json, and the words of the spec they are
written in: the opcode table, the legal ranges and the two validation tables, written out here from the rules and not
from the model's own definitions. -/

open Sys2Proof Sys2Proof.Machine

namespace Sys2Proof.Spec

/-- The mask and match of each row of spec/opcode_table.json. -/
def opcodeRows : List (BitVec 64 × BitVec 64) :=
  [(0xFF00FFFF00000000, 0x0100000000000000), (0xFF00FFFFFFFFFFFF, 0x0200000000000000),
   (0xFFFFFFFFFFFFFF00, 0x0300000000000000), (0xFFFFFFFFFFFFFFFF, 0x0400000000000000),
   (0xFFFFFFFFFFFFFFFF, 0x1000000000000000), (0xFFFFFFFFFFFFFFFF, 0x1100000000000000)]

/-- R96: `OP` is unassigned (R92), or a must-be-zero field of R93 is not zero. -/
abbrev IllegalWord (w : BitVec 64) : Prop :=
  let op := w.extractLsb' 56 8
  let reg := w.extractLsb' 48 8
  let z := w.extractLsb' 32 16
  let imm := w.extractLsb' 0 32
  (op ≠ 0x01 ∧ op ≠ 0x02 ∧ op ≠ 0x03 ∧ op ≠ 0x04 ∧ op ≠ 0x10 ∧ op ≠ 0x11) ∨
    (op = 0x01 ∧ z ≠ 0) ∨ (op = 0x02 ∧ (z ≠ 0 ∨ imm ≠ 0)) ∨
    (op = 0x03 ∧ (reg ≠ 0 ∨ z ≠ 0 ∨ imm.extractLsb' 8 24 ≠ 0)) ∨
    ((op = 0x04 ∨ op = 0x10 ∨ op = 0x11) ∧ (reg ≠ 0 ∨ z ≠ 0 ∨ imm ≠ 0))

/-- R95: the numbers that name a register. -/
abbrev NamesRegister (n : BitVec 8) : Prop := n.toNat ≤ 0x0C ∨ (0x10 ≤ n.toNat ∧ n.toNat ≤ 0x1D)

/-- R120: `maxlegal`, by register number. -/
def maxLegal (n : BitVec 8) : Nat :=
  if n.toNat ≤ 0x03 then 65536
  else if n = 0x08 then 3
  else if n = 0x10 ∨ n = 0x13 ∨ n = 0x14 then 0xFFFF
  else if n = 0x11 then 15
  else if n = 0x12 then 1
  else 2 ^ 32 - 1

/-- R161: the response of `LEVEL`, by the first test that fails; the response of a frame that passes is OK. -/
def levelVerdict (p : LevelRegs) : ResponseWord :=
  if p.inStride.toNat % 4 ≠ 0 ∨ p.outStride.toNat % 4 ≠ 0 then 0x0100000000000006
  else if p.inStride.toNat < 2 * p.width.toNat ∨ p.outStride.toNat < p.width.toNat then 0x0100000000000007
  else if p.srcBase.toNat % 4 ≠ 0 ∨ p.dstBase.toNat % 4 ≠ 0 then 0x0100000000000008
  else if p.srcBase.toNat + p.srcSize.toNat > 2 ^ 32 ∨ p.dstBase.toNat + p.dstSize.toNat > 2 ^ 32 then
    0x0100000000000009
  else if p.height.toNat * p.inStride.toNat > p.srcSize.toNat then 0x0200000000000001
  else if p.height.toNat * p.outStride.toNat > p.dstSize.toNat then 0x0200000000000002
  else 0

/-- R182: the source row bytes `RB`. -/
def unpackRowBytes (p : UnpackRegs) : Nat :=
  if p.layout = 1 then 8 * (p.width.toNat / 3) else 2 * p.width.toNat

/-- R182: the response of `UNPACK`, by the first test that fails; the response of a frame that passes is OK. -/
def unpackVerdict (p : UnpackRegs) : ResponseWord :=
  if p.layout ≠ 1 ∧ p.layout ≠ 2 then 0x0100000000000004
  else if p.layout = 1 ∧ p.width.toNat % 3 ≠ 0 then 0x0100000000000005
  else if p.inStride.toNat % 4 ≠ 0 ∨ p.outStride.toNat % 4 ≠ 0 then 0x0100000000000006
  else if p.inStride.toNat < unpackRowBytes p ∨ p.outStride.toNat < 2 * p.width.toNat then 0x0100000000000007
  else if p.srcBase.toNat % 4 ≠ 0 ∨ p.dstBase.toNat % 4 ≠ 0 then 0x0100000000000008
  else if p.srcBase.toNat + p.srcSize.toNat > 2 ^ 32 ∨ p.dstBase.toNat + p.dstSize.toNat > 2 ^ 32 then
    0x0100000000000009
  else if p.height.toNat * p.inStride.toNat > p.srcSize.toNat then 0x0200000000000001
  else if p.height.toNat * p.outStride.toNat > p.dstSize.toNat then 0x0200000000000002
  else 0

/-- R234: the response of a word in a state, by the first test that fails; with none failing, OK with the datum of R91:
the value read by `RDREG` or `RDLUT`, zero for every other command. -/
def responseOf (s : State) (w : BitVec 64) : ResponseWord :=
  let op := w.extractLsb' 56 8
  let reg := w.extractLsb' 48 8
  let imm := w.extractLsb' 0 32
  if IllegalWord w then 0x0100000000000001
  else if (op = 0x01 ∨ op = 0x02) ∧ ¬ NamesRegister reg then 0x0100000000000002
  else if op = 0x01 ∧ maxLegal reg < imm.toNat then 0x0100000000000003
  else if op = 0x10 then levelVerdict s.lv
  else if op = 0x11 then unpackVerdict s.up
  else if op = 0x02 then
    match Reg.ofNumber reg with
    | some r => 0#32 ++ s.readReg r
    | none => 0
  else if op = 0x03 then 0#56 ++ s.lut.read (w.extractLsb' 0 8)
  else 0

/-- The state after a command whose only effect is its response. -/
def answered (s : State) (w : ResponseWord) : State := { s with responses := s.responses ++ [w] }

/-- The sample of R213 at pixel `(r, c)` of `LEVEL`: the two source bytes, assembled (R210). -/
def levelSampleAt (p : LevelRegs) (m : Memory) (r c : Nat) : Sample :=
  sample16 (m.read (p.srcAddr r c)) (m.read (p.srcAddr r c + 1)) p.endianIn

/-- The 32-bit word stored little-endian at an address (R61, R62). -/
def wordAt (m : Memory) (a : Nat) : Word32 := m.read (a + 3) ++ m.read (a + 2) ++ m.read (a + 1) ++ m.read a

/-- The pair `(chroma, luma)` of output sample `(r, c)` of `UNPACK`, as integers: the two bytes of R183 for
InterleavedByte, the two fields of the table of R185 for TenBitPacked. -/
def pairAt (p : UnpackRegs) (m : Memory) (r c : Nat) : Nat × Nat :=
  if p.layout = 2 then ((m.read (p.pairAddr r c)).toNat, (m.read (p.pairAddr r c + 1)).toNat)
  else
    let w0 := (wordAt m (p.groupAddr r (c / 3))).toNat
    let w1 := (wordAt m (p.groupAddr r (c / 3) + 4)).toNat
    if c % 3 = 0 then (w0 % 1024, w0 / 1024 % 1024)
    else if c % 3 = 1 then (w0 / 1048576 % 1024, w1 % 1024)
    else (w1 / 1024 % 1024, w1 / 1048576 % 1024)

/-- Output sample `(r, c)` of `UNPACK`: `Combine` of its pair (R184, R186, R215). -/
def unpackSampleAt (p : UnpackRegs) (m : Memory) (r c : Nat) : Sample :=
  combine p (BitVec.ofNat 32 (pairAt p m r c).1) (BitVec.ofNat 32 (pairAt p m r c).2)

/-- The low 16 bits of an exact integer: `trunc_16` (R7, R215). -/
def trunc16 (v : Int) : Nat := (v % 65536).toNat

/-- The row-major list of units of a frame (R67, R163). -/
def rowMajor (rows cols : Nat) : List (Nat × Nat) :=
  (List.range rows).flatMap fun r => (List.range cols).map fun c => (r, c)

/-- One pixel of `LEVEL` on memory as it stands: read the sample, then write its table entry (R160, R163). -/
def levelPixelWrite (p : LevelRegs) (lut : Table) (m : Memory) (rc : Nat × Nat) : Memory :=
  m.write (p.dstAddr rc.1 rc.2) (lut.read (levelIndex (levelSampleAt p m rc.1 rc.2) p.signedIn))

/-- The 16-bit little-endian store of R216, as its two bytes. -/
def storeSample (m : Memory) (a : Nat) (v : Sample) : Memory :=
  (m.write a (v.extractLsb' 0 8)).write (a + 1) (v.extractLsb' 8 8)

/-- One InterleavedByte pixel on memory as it stands: read the pair, then store its sample (R184). -/
def pairWrite (p : UnpackRegs) (m : Memory) (rc : Nat × Nat) : Memory :=
  storeSample m (p.dstAddr rc.1 rc.2) (unpackSampleAt p m rc.1 rc.2)

/-- One TenBitPacked group on memory as it stands: read both words, then store the three lanes (R187). -/
def groupWrite (p : UnpackRegs) (m : Memory) (rg : Nat × Nat) : Memory :=
  [0, 1, 2].foldl (fun m' k =>
    storeSample m' (p.dstAddr rg.1 (3 * rg.2 + k)) (unpackSampleAt p m rg.1 (3 * rg.2 + k))) m

end Sys2Proof.Spec

open Sys2Proof.Spec

/-! ### Encoding and the step -/

/-- Every command decodes back from its word: no bit of an operand is dropped (R93, R94). -/
def Obligations.DecodeOfEncodeIsTheCommand : Prop :=
  ∀ i : Instr, decode (encode i) = .instr i

/-- Every legal word has one meaning, and the encoder gives that word back (R93, R99). -/
def Obligations.EncodeOfDecodeIsTheWord : Prop :=
  ∀ (w : CommandWord) (i : Instr), decode w = .instr i → encode i = w

/-- A word is rejected exactly when it matches no row of the opcode table (R93, R97). -/
def Obligations.RejectedWordsMatchNoTableRow : Prop :=
  ∀ w : CommandWord, (∃ why, decode w = .rejected why) ↔ ∀ row ∈ opcodeRows, w &&& row.1 ≠ row.2

/-- Words written out in the spec decode to the commands they stand for (R93; spec/95_test_vectors.md). -/
def Obligations.WordsOfTheSpecDecode : Prop :=
  decode 0x0101000000010000 = .instr (.wrreg 0x01 65536) ∧
  decode 0x011000000000FFF0 = .instr (.wrreg 0x10 0xFFF0) ∧
  decode 0x0201000000000000 = .instr (.rdreg 0x01) ∧
  decode 0x03000000000000C8 = .instr (.rdlut 200) ∧
  decode 0x0400000000000000 = .instr .lutbld ∧
  decode 0x1000000000000000 = .instr .level ∧
  decode 0x1100000000000000 = .instr .unpack

/-- R96: an illegal word is answered with ConfigurationError, `ILLEGAL_COMMAND`, and changes nothing; the all-zero and
the all-ones word are illegal. -/
def Obligations.IllegalWordIsAnsweredAndChangesNothing : Prop :=
  (∀ (s : State) (w : CommandWord) (rest : List HostAction), s.host = .command w :: rest → IllegalWord w →
    step s = .next { s with host := rest, responses := s.responses ++ [0x0100000000000001] }) ∧
  IllegalWord 0x0000000000000000 ∧ IllegalWord 0xFFFFFFFFFFFFFFFF

/-- A step runs the decoded command on the state without the word. -/
def Obligations.StepRunsTheDecodedCommand : Prop :=
  ∀ (s : State) (w : CommandWord) (rest : List HostAction) (i : Instr),
    s.host = .command w :: rest → decode w = .instr i → step s = exec i { s with host := rest }

/-- Between commands the host writes one byte of memory, and nothing else changes (R70, R267). Reset between commands
leaves the host's further actions to come and the responses given as they are (model's choice,
notes/assumptions/5.md), and while the host does nothing further the engine waits (model's choice,
notes/assumptions/3.md). -/
def Obligations.HostActsBetweenCommands : Prop :=
  (∀ (s : State) (a : BitVec 32) (v : Byte) (rest : List HostAction),
    s.host = .writeByte a v :: rest → s.mem.wf = true →
    ∃ t, step s = .next t ∧ t.mem.read a.toNat = v ∧ (∀ b, b ≠ a.toNat → t.mem.read b = s.mem.read b) ∧
      t = { s with host := rest, mem := t.mem }) ∧
  (∀ (s : State) (rest : List HostAction), s.host = .reset :: rest →
    ∃ t, step s = .next t ∧ t.host = rest ∧ t.responses = s.responses) ∧
  ∀ s : State, s.host = [] → step s = .next s

/-- R261: what reset leaves, at power-on and when the host asserts reset between commands: every register and every
table entry 0, which is the table of the four level registers. Memory is as it was (R262). -/
def Obligations.ResetZeroesRegistersAndTable : Prop :=
  (∀ r : Reg, State.reset.readReg r = 0) ∧ (∀ i : Byte, State.reset.lut.read i = 0) ∧
  State.reset.lut = buildLut 0 0 0 0 ∧
  ∀ (s : State) (rest : List HostAction), s.host = .reset :: rest →
    ∃ t, step s = .next t ∧ (∀ r : Reg, t.readReg r = 0) ∧ (∀ i : Byte, t.lut.read i = 0) ∧
      t.lut = buildLut 0 0 0 0 ∧ t.mem = s.mem

/-- R260: reset during a command abandons it. Its response is never returned, the registers and the table are reset,
and memory holds the first `k` of the writes the command would have made, in program order. The writes are those that,
all made, give the memory of the completed command. The host's further actions are still to come (model's choice,
notes/assumptions/5.md). -/
def Obligations.ResetAbandonsTheCommandInFlight : Prop :=
  ∀ (s : State) (w : CommandWord) (k : Nat) (rest : List HostAction), s.host = .resetDuring w k :: rest →
    ∃ (t u : State) (stores : List Store), step s = .next t ∧ runCommand w { s with host := rest } = .next u ∧
      commandStores w s = some stores ∧ s.mem.replay stores = some u.mem ∧
      s.mem.replay (stores.take k) = some t.mem ∧
      (∀ r : Reg, t.readReg r = 0) ∧ (∀ i : Byte, t.lut.read i = 0) ∧ t.host = rest ∧ t.responses = s.responses

/-! ### The whole machine -/

/-- No step of any state faults or is refused: validation rules out every access outside memory (R63, R166, R236). -/
def Obligations.EveryStepAnswersNextState : Prop :=
  ∀ s : State, ∃ t, step s = .next t

/-- The reset state meets the invariant. -/
def Obligations.ResetMeetsInvariant : Prop := State.reset.Inv

/-- Every step keeps the invariant: legal level registers (R24), the table equal to `BuildLUT` of them (R53), memory
canonical inside the address space (R54). -/
def Obligations.EveryStepKeepsInvariant : Prop :=
  ∀ s t : State, s.Inv → step s = .next t → t.Inv

/-- Every command produces exactly one response word, of the format `P` of R91, and it is the word of the first failing
test in the order of R234. -/
def Obligations.EveryCommandGivesItsResponse : Prop :=
  ∀ (s : State) (w : CommandWord) (rest : List HostAction), s.host = .command w :: rest →
    (∃ t, step s = .next t ∧ t.responses = s.responses ++ [responseOf s w]) ∧
    (responseOf s w).extractLsb' 32 24 = 0 ∧
    ((responseOf s w).extractLsb' 56 8 = 0x00 ∨
      ((responseOf s w).extractLsb' 56 8 = 0x01 ∧ 1 ≤ ((responseOf s w).extractLsb' 0 32).toNat ∧
        ((responseOf s w).extractLsb' 0 32).toNat ≤ 9) ∨
      ((responseOf s w).extractLsb' 56 8 = 0x02 ∧ 1 ≤ ((responseOf s w).extractLsb' 0 32).toNat ∧
        ((responseOf s w).extractLsb' 0 32).toNat ≤ 2))

/-- A command whose response is not OK has changed no register, no table entry and no memory byte (R236). -/
def Obligations.FailedCommandChangesNothing : Prop :=
  ∀ (s : State) (w : CommandWord) (rest : List HostAction), s.host = .command w :: rest →
    ∃ (t : State) (p : ResponseWord), step s = .next t ∧ t.responses = s.responses ++ [p] ∧
      (p.extractLsb' 56 8 ≠ 0x00 → t = { s with host := rest, responses := s.responses ++ [p] })

/-- The response of a command does not depend on what memory holds (R238). -/
def Obligations.ResponseIgnoresMemory : Prop :=
  ∀ (s : State) (m : Memory) (w : CommandWord), ∃ (t u : State), runCommand w s = .next t ∧
    runCommand w { s with mem := m } = .next u ∧ t.responses = u.responses

/-- The two kernels share no state (R9): `LEVEL` neither reads nor writes bank 1, `UNPACK` neither reads nor writes
bank 0 and the table. -/
def Obligations.KernelsShareNoState : Prop :=
  (∀ (s t : State) (up : UnpackRegs), exec .level s = .next t →
    t.up = s.up ∧ exec .level { s with up := up } = .next { t with up := up }) ∧
  (∀ (s t : State) (lv : LevelRegs) (lut : Table), exec .unpack s = .next t →
    t.lv = s.lv ∧ t.lut = s.lut ∧
    exec .unpack { s with lv := lv, lut := lut } = .next { t with lv := lv, lut := lut })

/-! ### Configuration commands -/

/-- R95: which numbers name registers, and that `WRREG` and `RDREG` of any other number end with `UNKNOWN_REGISTER` and
change nothing. -/
def Obligations.UnknownRegisterIsRefused : Prop :=
  (∀ n : BitVec 8, (∃ r : Reg, r.number = n) ↔ NamesRegister n) ∧
  (∀ r : Reg, Reg.ofNumber r.number = some r) ∧
  ∀ (n : BitVec 8) (v : Word32) (s : State), ¬ NamesRegister n →
    exec (.wrreg n v) s = .next (answered s 0x0100000000000002) ∧
    exec (.rdreg n) s = .next (answered s 0x0100000000000002)

/-- `WRREG` of a value above `maxlegal` ends with `OPERAND_RANGE` and changes nothing (R24, R120). -/
def Obligations.OutOfRangeOperandIsRefused : Prop :=
  ∀ (n : BitVec 8) (v : Word32) (s : State), NamesRegister n → maxLegal n < v.toNat →
    exec (.wrreg n v) s = .next (answered s 0x0100000000000003)

/-- An accepted `WRREG` writes the register and nothing else, but for a level parameter, whose write replaces the whole
table by `BuildLUT` of the four registers as they stand after it; a refused one rebuilds nothing (R120, R123, R124). -/
def Obligations.WrregWritesRegisterAndRebuildsTable : Prop :=
  (∀ (r : Reg) (v : Word32) (s : State), v.toNat ≤ maxLegal r.number →
    ∃ t, exec (.wrreg r.number v) s = .next t ∧ t.readReg r = v ∧
      (∀ r' : Reg, r' ≠ r → t.readReg r' = s.readReg r') ∧
      t.lut = (if r.number.toNat ≤ 0x03 then
          buildLut (t.readReg .lvLowIn).toNat (t.readReg .lvHighIn).toNat (t.readReg .lvLowOut).toNat
            (t.readReg .lvHighOut).toNat
        else s.lut) ∧
      t.mem = s.mem ∧ t.host = s.host ∧ t.responses = s.responses ++ [0x0000000000000000]) ∧
  ∀ (n : BitVec 8) (v : Word32) (s : State), ¬ NamesRegister n ∨ maxLegal n < v.toNat →
    ∃ t, exec (.wrreg n v) s = .next t ∧ t.lut = s.lut ∧ ∀ r : Reg, t.readReg r = s.readReg r

/-- `RDREG` answers with the register's value zero-extended, and changes nothing (R24, R121). -/
def Obligations.RdregAnswersTheRegister : Prop :=
  ∀ (r : Reg) (s : State), exec (.rdreg r.number) s = .next (answered s (0#32 ++ s.readReg r))

/-- The register a `WRREG` has written reads back as the operand (R94, R121, R266). -/
def Obligations.RdregReturnsTheWrittenOperand : Prop :=
  ∀ (r : Reg) (v : Word32) (s : State), v.toNat ≤ maxLegal r.number →
    ∃ t, exec (.wrreg r.number v) s = .next t ∧ exec (.rdreg r.number) t = .next (answered t (0#32 ++ v))

/-- `RDLUT` answers with the table entry zero-extended, and changes nothing (R122). -/
def Obligations.RdlutAnswersTheEntry : Prop :=
  ∀ (i : BitVec 8) (s : State), exec (.rdlut i) s = .next (answered s (0#56 ++ s.lut.read i))

/-- `LUTBLD` replaces the table by `BuildLUT` of the level registers and changes nothing else; where the table
invariant holds it changes nothing but the responses (R53, R147). -/
def Obligations.LutbldRebuildsTheTable : Prop :=
  (∀ s : State, exec .lutbld s = .next { answered s 0x0000000000000000 with
    lut := buildLut (s.readReg .lvLowIn).toNat (s.readReg .lvHighIn).toNat (s.readReg .lvLowOut).toNat
      (s.readReg .lvHighOut).toNat }) ∧
  ∀ s : State, s.Inv → exec .lutbld s = .next (answered s 0x0000000000000000)

/-- After the four commands of `SETLEVELS` the table equals `BuildLUT` of its operands (R101). -/
def Obligations.SetLevelsBuildsTheTable : Prop :=
  ∀ (s : State) (li hi lo ho : Word32) (rest : List HostAction),
    li.toNat ≤ 65536 → hi.toNat ≤ 65536 → lo.toNat ≤ 65536 → ho.toNat ≤ 65536 →
    s.host = .command (encode (.wrreg 0x00 li)) :: .command (encode (.wrreg 0x01 hi)) ::
      .command (encode (.wrreg 0x02 lo)) :: .command (encode (.wrreg 0x03 ho)) :: rest →
    ∃ t, Host.Core.run Sys2Proof.core 4 s = .next t ∧
      t.lut = buildLut li.toNat hi.toNat lo.toNat ho.toNat ∧
      t.responses = s.responses ++ [0, 0, 0, 0] ∧ t.host = rest

/-- A line `RDREG <name>` assembles to the word of R93 for every register name (R100). -/
def Obligations.AssemblerKnowsEveryRegisterName : Prop :=
  ∀ r : Reg, assemble ["RDREG ".toList ++ r.name.toList] =
    some [0x0200000000000000 ||| (r.number.setWidth 64 <<< 48)]

/-! ### The level table -/

/-- R140: the level byte. -/
def Obligations.LevelByteFollowsItsRule : Prop :=
  (∀ k : Nat, k ≤ 65536 → byte255 k = k * 255 / 65536 ∧ byte255 k ≤ 255 ∧ k * 255 ≤ 16711680) ∧
  (∀ k k' : Nat, k ≤ k' → byte255 k ≤ byte255 k') ∧
  byte255 0 = 0 ∧ byte255 65536 = 255 ∧ byte255 32768 = 127

/-- R143: every entry of `BuildLUT` is the exact integer of its clause, with a positive divisor in the ramp. -/
def Obligations.TableEntryFollowsTheClauses : Prop :=
  ∀ (a b p q : Nat) (i : Byte), a ≤ 65536 → b ≤ 65536 → p ≤ 65536 → q ≤ 65536 →
    let loIn := a * 255 / 65536
    let hiIn := b * 255 / 65536
    let loOut := p * 255 / 65536
    let hiOut := q * 255 / 65536
    let ramp := ((i.toNat : Int) - loIn) * ((q : Int) - p)
    (((buildLut a b p q).read i).toNat : Int) =
        (if i.toNat < loIn then (loOut : Int)
         else if i.toNat < hiIn then (loOut : Int) + Int.tdiv ramp ((b : Int) - a)
         else (hiOut : Int)) ∧
      (loIn ≤ i.toNat → i.toNat < hiIn → a < b ∧ ramp ≤ 254 * 65536 ∧ -(254 * 65536) ≤ ramp)

/-- R146: every entry is in `0 .. 255` without wrap, and the entries of the ramp lie between the two output levels. -/
def Obligations.TableEntriesStayInRange : Prop :=
  ∀ (a b p q i : Nat), a ≤ 65536 → b ≤ 65536 → p ≤ 65536 → q ≤ 65536 → i ≤ 255 →
    0 ≤ lutEntryExact a b p q i ∧ lutEntryExact a b p q i ≤ 255 ∧
    (((buildLut a b p q).read (BitVec.ofNat 8 i)).toNat : Int) = lutEntryExact a b p q i ∧
    (byte255 a ≤ i → i < byte255 b → ((i : Int) - byte255 a) * 65536 < 255 * ((b : Int) - a)) ∧
    (byte255 a ≤ i → i < byte255 b → p ≤ q →
      (byte255 p : Int) ≤ lutEntryExact a b p q i ∧ lutEntryExact a b p q i ≤ byte255 q) ∧
    (byte255 a ≤ i → i < byte255 b → q < p →
      (byte255 q : Int) ≤ lutEntryExact a b p q i ∧ lutEntryExact a b p q i ≤ byte255 p)

/-- R144: the first clause wins when the input range is inverted, and otherwise exactly one clause applies. -/
def Obligations.InvertedInputRangeIsAStep : Prop :=
  ∀ (a b p q : Nat) (i : Byte), a ≤ 65536 → b ≤ 65536 → p ≤ 65536 → q ≤ 65536 →
    (byte255 b < byte255 a →
      ((buildLut a b p q).read i).toNat = if i.toNat < byte255 a then byte255 p else byte255 q) ∧
    (byte255 a ≤ byte255 b →
      (i.toNat < byte255 a ∧ ¬(byte255 a ≤ i.toNat ∧ i.toNat < byte255 b) ∧ ¬(byte255 b ≤ i.toNat)) ∨
      (¬(i.toNat < byte255 a) ∧ (byte255 a ≤ i.toNat ∧ i.toNat < byte255 b) ∧ ¬(byte255 b ≤ i.toNat)) ∨
      (¬(i.toNat < byte255 a) ∧ ¬(byte255 a ≤ i.toNat ∧ i.toNat < byte255 b) ∧ byte255 b ≤ i.toNat))

/-- R149: the all-zero table, the identity table, and the degenerate table. -/
def Obligations.ZeroIdentityAndDegenerateTables : Prop :=
  (∀ i : Byte, (buildLut 0 0 0 0).read i = 0) ∧
  (∀ i : Byte, (buildLut 0 65536 0 65536).read i = i) ∧
  ∀ (a b p q : Nat), a ≤ 65536 → b ≤ 65536 → p ≤ 65536 → q ≤ 65536 → byte255 a = byte255 b →
    (∀ i : Byte, ((buildLut a b p q).read i).toNat = if i.toNat < byte255 a then byte255 p else byte255 q) ∧
    ((∀ i j : Byte, (buildLut a b p q).read i = (buildLut a b p q).read j) ↔
      (byte255 q = byte255 p ∨ byte255 a = 0))

/-- R150: the table is non-decreasing when the output levels are not inverted, non-increasing when they are. -/
def Obligations.TableIsMonotone : Prop :=
  ∀ (a b p q : Nat) (i j : Byte), a ≤ 65536 → b ≤ 65536 → p ≤ 65536 → q ≤ 65536 → byte255 a ≤ byte255 b →
    i.toNat ≤ j.toNat →
    (p ≤ q → ((buildLut a b p q).read i).toNat ≤ ((buildLut a b p q).read j).toNat) ∧
    (q < p → ((buildLut a b p q).read j).toNat ≤ ((buildLut a b p q).read i).toNat)

/-! ### The sample pipeline -/

/-- R210: byte assembly in both byte orders, and the source's property of swapped samples. -/
def Obligations.ByteAssemblyHonoursTheFlag : Prop :=
  ∀ b0 b1 : Byte, sample16 b0 b1 false = b1 ++ b0 ∧ sample16 b0 b1 true = b0 ++ b1 ∧
    sample16 b0 b1 true = byteSwap (sample16 b0 b1 false) ∧ sample16 b1 b0 true = sample16 b0 b1 false ∧
    ∀ (p : LevelRegs) (m : Memory) (a : Nat), m.read a = b0 → m.read (a + 1) = b1 →
      p.assemble (m.littleEndian a 2) = sample16 b0 b1 p.endianIn

/-- R211: the index of an unsigned sample is its high byte, and its low byte has no influence. -/
def Obligations.UnsignedIndexIsTheHighByte : Prop :=
  ∀ s s' : Sample, levelIndex s false = s.extractLsb' 8 8 ∧ (levelIndex s false).toNat = s.toNat / 256 ∧
    (s.toNat / 256 = s'.toNat / 256 → levelIndex s false = levelIndex s' false)

/-- R212: the index of a signed sample, its form in bits, its values, and that it is non-decreasing. -/
def Obligations.SignedIndexFollowsTheBias : Prop :=
  (∀ s : Sample, ((levelIndex s true).toNat : Int) = max (s.toInt + 32767) 0 / 256 ∧
    ((levelIndex s true).toNat = ((s ^^^ 0x8000).toNat - 1) / 256)) ∧
  (∀ s s' : Sample, s.toInt ≤ s'.toInt → (levelIndex s true).toNat ≤ (levelIndex s' true).toNat) ∧
  (levelIndex 0x0000 true = 127 ∧ levelIndex 0x0001 true = 128 ∧ levelIndex 0xFFFF true = 127 ∧
    levelIndex 0x7FFF true = 255 ∧ levelIndex 0x8001 true = 0 ∧ levelIndex 0x8000 true = 0 ∧
    levelIndex 0x0100 true = 128 ∧ levelIndex 0x0101 true = 129 ∧ levelIndex 0xFF01 true = 127 ∧
    levelIndex 0xFF00 true = 126)

/-- R215: `Combine` in exact integers, with the sums cut to 32 bits and, equally, to the 16 bits that the masks leave,
and the source's two examples. -/
def Obligations.CombineFollowsItsRule : Prop :=
  (∀ (p : UnpackRegs) (chroma luma : Nat), chroma ≤ 1023 → luma ≤ 1023 →
    let ch : Int := if p.swap = 1 then luma else chroma
    let lu : Int := if p.swap = 1 then chroma else luma
    let ct := ((ch + p.offset.toInt) % 4294967296).toNat &&& p.chromaMask.toNat
    let lt := ((lu + p.offset.toInt) % 4294967296).toNat &&& p.lumaMask.toNat
    ct = trunc16 (ch + p.offset.toInt) &&& p.chromaMask.toNat ∧
    lt = trunc16 (lu + p.offset.toInt) &&& p.lumaMask.toNat ∧
    (ct ||| lt * 2 ^ p.shift.toNat) ≤ 0x7FFFFFFF ∧
    (combine p (BitVec.ofNat 32 chroma) (BitVec.ofNat 32 luma)).toNat = (ct ||| lt * 2 ^ p.shift.toNat) % 65536 ∧
    (combine p (BitVec.ofNat 32 chroma) (BitVec.ofNat 32 luma)).toNat =
      (ct ||| (lt * 2 ^ p.shift.toNat) % 65536)) ∧
  (∀ p : UnpackRegs, p.offset = 0 → p.shift = 8 → p.lumaMask = 0xFF → p.chromaMask = 0xFF →
    (p.swap = 0 → combine p 0x10 0x20 = 0x2010) ∧ (p.swap = 1 → combine p 0x10 0x20 = 0x1020))

/-- The offset sums of fields lie in `-32768 .. 33790`, and the shifted luma term is at most `0x7FFF8000`, so nothing
leaves the 32-bit accumulator (R218). -/
def Obligations.AccumulatorNeverOverflows : Prop :=
  ∀ (p : UnpackRegs) (field : Nat) (luma chroma : Word32), field ≤ 1023 →
    -32768 ≤ (field : Int) + p.offset.toInt ∧ (field : Int) + p.offset.toInt ≤ 33790 ∧
    (p.lumaTerm luma).toNat * 2 ^ p.shift.toNat ≤ 0x7FFF8000 ∧
    (p.lumaTerm luma <<< p.shift.toNat).toNat = (p.lumaTerm luma).toNat * 2 ^ p.shift.toNat ∧
    (p.accumulator chroma luma).toNat ≤ 0x7FFFFFFF

/-- The six fields of a group, alternately chroma and luma, and that bits `[31:30]` are ignored (R185). -/
def Obligations.TenBitFieldsAlternate : Prop :=
  ∀ w0 w1 : Word32,
    ((tenBitPair w0 w1 0).1.toNat = w0.toNat % 1024 ∧ (tenBitPair w0 w1 0).2.toNat = w0.toNat / 1024 % 1024) ∧
    ((tenBitPair w0 w1 1).1.toNat = w0.toNat / 1048576 % 1024 ∧ (tenBitPair w0 w1 1).2.toNat = w1.toNat % 1024) ∧
    ((tenBitPair w0 w1 2).1.toNat = w1.toNat / 1024 % 1024 ∧
      (tenBitPair w0 w1 2).2.toNat = w1.toNat / 1048576 % 1024) ∧
    ∀ (u0 u1 : Word32) (k : Nat), w0.toNat % 2 ^ 30 = u0.toNat % 2 ^ 30 → w1.toNat % 2 ^ 30 = u1.toNat % 2 ^ 30 →
      tenBitPair w0 w1 k = tenBitPair u0 u1 k

/-! ### Memory -/

/-- R61: what `MemRead` and `MemWrite` are, where they are defined, and that a read returns what was written. -/
def Obligations.MemoryReadsBackWhatWasWritten : Prop :=
  (∀ (m : Memory) (a n : Nat), (n = 1 ∨ n = 2 ∨ n = 4) →
    m.memRead a n = if a + n ≤ 2 ^ 32 then
      some (((List.range n).map fun k => (m.read (a + k)).toNat * 2 ^ (8 * k)).sum) else none) ∧
  ∀ (m : Memory) (a n v : Nat), (n = 1 ∨ n = 2 ∨ n = 4) → m.wf = true → v < 2 ^ (8 * n) →
    (¬ a + n ≤ 2 ^ 32 → m.memWrite a n v = none) ∧
    (a + n ≤ 2 ^ 32 → ∃ m', m.memWrite a n v = some m' ∧ m'.wf = true ∧ m'.memRead a n = some v ∧
      (∀ k, k < n → (m'.read (a + k)).toNat = v / 2 ^ (8 * k) % 256) ∧
      ∀ b, b < a ∨ a + n ≤ b → m'.read b = m.read b)

/-- The addresses of the elements of every buffer (R64, R162, R183, R187). -/
def Obligations.ElementAddressesAreByteOffsets : Prop :=
  (∀ (p : LevelRegs) (r c : Nat),
    p.srcAddr r c = p.srcBase.toNat + r * p.inStride.toNat + 2 * c ∧
    p.dstAddr r c = p.dstBase.toNat + r * p.outStride.toNat + c) ∧
  ∀ (p : UnpackRegs) (r c : Nat),
    p.pairAddr r c = p.srcBase.toNat + r * p.inStride.toNat + 2 * c ∧
    p.groupAddr r c = p.srcBase.toNat + r * p.inStride.toNat + 8 * c ∧
    p.dstAddr r c = p.dstBase.toNat + r * p.outStride.toNat + 2 * c

/-! ### `LEVEL` -/

/-- R161: the tests of `LEVEL` in their order. The first that fails decides the response and nothing changes; when none
fails the response is OK. -/
def Obligations.LevelValidationFollowsItsOrder : Prop :=
  ∀ s : State, (levelVerdict s.lv ≠ 0 → exec .level s = .next (answered s (levelVerdict s.lv))) ∧
    (levelVerdict s.lv = 0 → ∃ t, exec .level s = .next t ∧ t.responses = s.responses ++ [0])

/-- `LEVEL` on an accepted frame answers OK, changes no register and no table entry, and changes no byte but the
destination pixel bytes (R75, R160, R164). -/
def Obligations.LevelWritesPixelBytesOnly : Prop :=
  ∀ s : State, levelVerdict s.lv = 0 → s.mem.wf = true →
    ∃ t, exec .level s = .next t ∧ t = { answered s 0 with mem := t.mem } ∧
      ∀ a, (∀ r c, r < s.lv.height.toNat → c < s.lv.width.toNat → a ≠ s.lv.dstAddr r c) →
        t.mem.read a = s.mem.read a

/-- `LEVEL` on an accepted frame whose buffers are disjoint, or in place: every destination pixel byte is the table
entry of the index of its own source sample (R69, R163, R164, R213). -/
def Obligations.LevelMapsEverySample : Prop :=
  ∀ s : State, levelVerdict s.lv = 0 → s.mem.wf = true → (s.lv.shape.Disjoint ∨ s.lv.shape.InPlace) →
    ∃ t, exec .level s = .next t ∧
      ∀ r c, r < s.lv.height.toNat → c < s.lv.width.toNat →
        t.mem.read (s.lv.dstAddr r c) = s.lut.read (levelIndex (levelSampleAt s.lv s.mem r c) s.lv.signedIn)

/-- `LEVEL` writes each destination pixel byte exactly once, in row-major order, whatever the samples are, and these
writes are all that it does to memory (R67, R163, R164). -/
def Obligations.LevelStoresRowMajorOnce : Prop :=
  ∀ s : State, levelVerdict s.lv = 0 →
    ∃ (f : Transfer) (t : State), levelFrame s.lv s.lut s.mem = some f ∧ exec .level s = .next t ∧ t.mem = f.mem ∧
      s.mem.replay f.stores = some f.mem ∧
      f.stores.map Store.addr =
        (rowMajor s.lv.height.toNat s.lv.width.toNat).map (fun rc => s.lv.dstAddr rc.1 rc.2) ∧
      (f.stores.map Store.addr).Nodup ∧ ∀ w ∈ f.stores, w.width = 1

/-- `LEVEL` on any accepted frame, whatever its buffers overlap: its pixels are read and written one after the other in
row-major order, each on memory as the earlier ones left it, and nothing else changes (R67, R69, R163). -/
def Obligations.LevelIsAFoldInProgramOrder : Prop :=
  ∀ s : State, levelVerdict s.lv = 0 →
    exec .level s = .next { answered s 0 with
      mem := (rowMajor s.lv.height.toNat s.lv.width.toNat).foldl (levelPixelWrite s.lv s.lut) s.mem }

/-- R165: a frame of zero width or height passes through the tests and does nothing; in the reset state `LEVEL` answers
OK and does nothing. -/
def Obligations.LevelOfAnEmptyFrameDoesNothing : Prop :=
  (∀ s : State, levelVerdict s.lv = 0 → (s.lv.width = 0 ∨ s.lv.height = 0) →
    exec .level s = .next (answered s 0)) ∧
  exec .level State.reset = .next (answered State.reset 0)

/-! ### `UNPACK` -/

/-- R182: the tests of `UNPACK` in their order. The first that fails decides the response and nothing changes; when
none fails the response is OK. -/
def Obligations.UnpackValidationFollowsItsOrder : Prop :=
  ∀ s : State, (unpackVerdict s.up ≠ 0 → exec .unpack s = .next (answered s (unpackVerdict s.up))) ∧
    (unpackVerdict s.up = 0 → ∃ t, exec .unpack s = .next t ∧ t.responses = s.responses ++ [0])

/-- `UNPACK` on an accepted frame answers OK, changes no register and no table entry, and changes no byte but those of
the destination samples (R75, R180, R189). -/
def Obligations.UnpackWritesSampleBytesOnly : Prop :=
  ∀ s : State, unpackVerdict s.up = 0 → s.mem.wf = true →
    ∃ t, exec .unpack s = .next t ∧ t = { answered s 0 with mem := t.mem } ∧
      ∀ a, (∀ r c, r < s.up.height.toNat → c < s.up.width.toNat →
          a ≠ s.up.dstAddr r c ∧ a ≠ s.up.dstAddr r c + 1) →
        t.mem.read a = s.mem.read a

/-- `UNPACK` in the InterleavedByte layout, with disjoint buffers or in place: every destination sample is `Combine` of
its own pair, stored little-endian (R69, R183, R184, R216). -/
def Obligations.UnpackCombinesEveryInterleavedPair : Prop :=
  ∀ s : State, unpackVerdict s.up = 0 → s.up.layout = 2 → s.mem.wf = true →
    (s.up.shape.Disjoint ∨ s.up.shape.InPlace) →
    ∃ t, exec .unpack s = .next t ∧
      ∀ r c, r < s.up.height.toNat → c < s.up.width.toNat →
        t.mem.read (s.up.dstAddr r c + 1) ++ t.mem.read (s.up.dstAddr r c) = unpackSampleAt s.up s.mem r c

/-- `UNPACK` in the TenBitPacked layout, with disjoint buffers or in place: every destination sample is `Combine` of
the pair of its lane, stored little-endian (R69, R185, R186, R187, R216). -/
def Obligations.UnpackCombinesEveryTenBitLane : Prop :=
  ∀ s : State, unpackVerdict s.up = 0 → s.up.layout = 1 → s.mem.wf = true →
    (s.up.shape.Disjoint ∨ s.up.shape.InPlace) →
    ∃ t, exec .unpack s = .next t ∧
      ∀ r c, r < s.up.height.toNat → c < s.up.width.toNat →
        t.mem.read (s.up.dstAddr r c + 1) ++ t.mem.read (s.up.dstAddr r c) = unpackSampleAt s.up s.mem r c

/-- `UNPACK` writes each destination sample exactly once, in row-major order, whatever the source bytes are, and these
writes are all that it does to memory (R67, R184, R187, R189). -/
def Obligations.UnpackStoresRowMajorOnce : Prop :=
  ∀ s : State, unpackVerdict s.up = 0 →
    ∃ (f : Transfer) (t : State), unpackFrame s.up s.mem = some f ∧ exec .unpack s = .next t ∧ t.mem = f.mem ∧
      s.mem.replay f.stores = some f.mem ∧
      f.stores.map Store.addr =
        (rowMajor s.up.height.toNat s.up.width.toNat).map (fun rc => s.up.dstAddr rc.1 rc.2) ∧
      (f.stores.map Store.addr).Nodup ∧ ∀ w ∈ f.stores, w.width = 2

/-- `UNPACK` on any accepted frame, whatever its buffers overlap: its pixels, or in the TenBitPacked layout its groups,
are read and written one after the other in row-major order, each on memory as the earlier ones left it, and nothing
else changes (R67, R69, R184, R187). -/
def Obligations.UnpackIsAFoldInProgramOrder : Prop :=
  ∀ s : State, unpackVerdict s.up = 0 →
    exec .unpack s = .next { answered s 0 with
      mem := if s.up.layout = 2 then (rowMajor s.up.height.toNat s.up.width.toNat).foldl (pairWrite s.up) s.mem
        else (rowMajor s.up.height.toNat (s.up.width.toNat / 3)).foldl (groupWrite s.up) s.mem }

/-- R190: a frame of zero width or height passes through the tests and does nothing, in both layouts; in the reset state
`UNPACK` answers `UNKNOWN_LAYOUT`; and once the tests pass, no source byte can make it fail. -/
def Obligations.UnpackOfAnEmptyFrameDoesNothing : Prop :=
  (∀ s : State, unpackVerdict s.up = 0 → (s.up.width = 0 ∨ s.up.height = 0) →
    exec .unpack s = .next (answered s 0)) ∧
  exec .unpack State.reset = .next (answered State.reset 0x0100000000000004) ∧
  ∀ (s : State) (m : Memory), unpackVerdict s.up = 0 →
    ∃ t, exec .unpack { s with mem := m } = .next t ∧ t.responses = s.responses ++ [0]

/-! ### The two kernels together -/

/-- The streaming pipeline of R217: `UNPACK` and then `LEVEL` on its destination buffer, read in native order. Every
8-bit result is the table entry of the index of `Combine` of its pair; for the unsigned interpretation that index is
the high byte. -/
def Obligations.PipelineMapsEveryPair : Prop :=
  ∀ s : State, unpackVerdict s.up = 0 → levelVerdict s.lv = 0 → s.mem.wf = true →
    (s.up.shape.Disjoint ∨ s.up.shape.InPlace) → (s.lv.shape.Disjoint ∨ s.lv.shape.InPlace) →
    s.lv.srcBase = s.up.dstBase → s.lv.inStride = s.up.outStride → s.lv.width = s.up.width →
    s.lv.height = s.up.height → s.lv.endianIn = false →
    ∃ t u, exec .unpack s = .next t ∧ exec .level t = .next u ∧
      ∀ r c, r < s.up.height.toNat → c < s.up.width.toNat →
        u.mem.read (s.lv.dstAddr r c) = s.lut.read (levelIndex (unpackSampleAt s.up s.mem r c) s.lv.signedIn) ∧
        (s.lv.signedIn = false →
          u.mem.read (s.lv.dstAddr r c) = s.lut.read ((unpackSampleAt s.up s.mem r c).extractLsb' 8 8))
end

