-- ==== Sys2Proof/WellFormed.lean ====
section
/-! DEFINITION. The static checks of a command (spec/30_encoding.md rule R99, steps 2 and 3): its register number
names a register, and a written value is legal for that register. Every command, well-formed or not, has an encoding
and a meaning: one that fails a check here is answered with the error that R99 names (Machine/Configure.lean). -/

namespace Sys2Proof

open Machine

/-- The command passes the static checks (2) and (3) of R99. -/
def Instr.wellFormed : Instr → Bool
  | .wrreg reg imm =>
    match Reg.ofNumber reg with
    | none => false
    | some r => decide (imm.toNat ≤ r.maxLegal)
  | .rdreg reg => (Reg.ofNumber reg).isSome
  | .rdlut _ => true
  | .lutbld => true
  | .level => true
  | .unpack => true

end Sys2Proof
end

