-- ==== Sys2Proof/Laws/Registers.lean ====
section
/-! SUPPORT. The laws of the register table and of reading and writing registers (spec/10_state.md rule R24). -/

namespace Sys2Proof.Machine

/-- A register's number names that register. -/
@[simp] theorem Reg.ofNumber_number (r : Reg) : Reg.ofNumber r.number = some r := by
  cases r <;> decide

/-- A number names a register only if it is that register's number. -/
theorem Reg.number_of_ofNumber {n : BitVec 8} {r : Reg} (h : Reg.ofNumber n = some r) : r.number = n := by
  simpa using List.find?_some h

theorem Reg.ofNumber_eq_some {n : BitVec 8} {r : Reg} : Reg.ofNumber n = some r ↔ r.number = n :=
  ⟨Reg.number_of_ofNumber, fun h => h ▸ Reg.ofNumber_number r⟩

/-- A legal value of a register fits 32 bits. -/
theorem Reg.maxLegal_lt (r : Reg) : r.maxLegal < 2 ^ 32 := by
  cases r <;> decide

/-! ### Reading and writing -/

/-- The register written reads back as the operand (R94). -/
theorem State.readReg_writeReg_same (s : State) (r : Reg) (v : Word32) (h : v.toNat ≤ r.maxLegal) :
    (s.writeReg r v).readReg r = v := by
  cases r <;> simp only [State.writeReg, State.readReg] <;>
    simp only [Reg.maxLegal] at h <;> apply BitVec.eq_of_toNat_eq <;> simp <;> omega

/-- A write leaves every other register alone (R24). -/
theorem State.readReg_writeReg_other (s : State) (r r' : Reg) (v : Word32) (h : r' ≠ r) :
    (s.writeReg r v).readReg r' = s.readReg r' := by
  cases r <;> cases r' <;> first | rfl | exact absurd rfl h

@[simp] theorem State.writeReg_lut (s : State) (r : Reg) (v : Word32) : (s.writeReg r v).lut = s.lut := by
  cases r <;> rfl
@[simp] theorem State.writeReg_mem (s : State) (r : Reg) (v : Word32) : (s.writeReg r v).mem = s.mem := by
  cases r <;> rfl
@[simp] theorem State.writeReg_host (s : State) (r : Reg) (v : Word32) : (s.writeReg r v).host = s.host := by
  cases r <;> rfl
@[simp] theorem State.writeReg_responses (s : State) (r : Reg) (v : Word32) :
    (s.writeReg r v).responses = s.responses := by
  cases r <;> rfl

@[simp] theorem State.configure_mem (s : State) (r : Reg) (v : Word32) : (s.configure r v).mem = s.mem := by
  simp only [State.configure]; split <;> simp [State.rebuildLut]
@[simp] theorem State.configure_host (s : State) (r : Reg) (v : Word32) : (s.configure r v).host = s.host := by
  simp only [State.configure]; split <;> simp [State.rebuildLut]
@[simp] theorem State.configure_responses (s : State) (r : Reg) (v : Word32) :
    (s.configure r v).responses = s.responses := by
  simp only [State.configure]; split <;> simp [State.rebuildLut]
@[simp] theorem State.configure_lv (s : State) (r : Reg) (v : Word32) :
    (s.configure r v).lv = (s.writeReg r v).lv := by
  simp only [State.configure]; split <;> rfl
@[simp] theorem State.configure_up (s : State) (r : Reg) (v : Word32) :
    (s.configure r v).up = (s.writeReg r v).up := by
  simp only [State.configure]; split <;> rfl
@[simp] theorem State.configure_readReg (s : State) (r r' : Reg) (v : Word32) :
    (s.configure r v).readReg r' = (s.writeReg r v).readReg r' := by
  simp only [State.configure]; split <;> rfl

/-- The table after an accepted write: rebuilt for a level parameter, untouched for any other register (R123, R124). -/
theorem State.configure_lut (s : State) (r : Reg) (v : Word32) :
    (s.configure r v).lut = if r.rebuildsTable then (s.writeReg r v).lv.table else s.lut := by
  simp only [State.configure]; split <;> simp [State.rebuildLut]

/-- The level parameters as `RDREG` reads them are their values. -/
theorem LevelRegs.table_eq (s : State) :
    s.lv.table = buildLut (s.readReg .lvLowIn).toNat (s.readReg .lvHighIn).toNat (s.readReg .lvLowOut).toNat
      (s.readReg .lvHighOut).toNat := by
  have h : ∀ v : BitVec 17, (v.setWidth 32).toNat = v.toNat := fun v => by
    have := v.isLt
    simp only [BitVec.toNat_setWidth]
    omega
  simp only [State.readReg, LevelRegs.table, h]

/-- A write of a register that does not rebuild the table leaves the level parameters alone. -/
theorem State.writeReg_level_params (s : State) (r : Reg) (v : Word32) (h : r.rebuildsTable = false) :
    (s.writeReg r v).lv.lowIn = s.lv.lowIn ∧ (s.writeReg r v).lv.highIn = s.lv.highIn ∧
      (s.writeReg r v).lv.lowOut = s.lv.lowOut ∧ (s.writeReg r v).lv.highOut = s.lv.highOut := by
  cases r <;> simp_all [State.writeReg, Reg.rebuildsTable]

/-- A legal write keeps the level registers legal (R24). -/
theorem State.writeReg_legal (s : State) (r : Reg) (v : Word32) (hs : s.lv.Legal) (h : v.toNat ≤ r.maxLegal) :
    (s.writeReg r v).lv.Legal := by
  obtain ⟨h1, h2, h3, h4⟩ := hs
  cases r <;> simp only [Reg.maxLegal] at h <;>
    simp only [State.writeReg, LevelRegs.Legal, BitVec.toNat_setWidth] <;> omega

end Sys2Proof.Machine
end

