-- ==== Sys2Proof/Laws/State.lean ====
section
/-! SUPPORT. The small lemmas of the state: what each update leaves in each field, one lemma per field. -/

namespace Sys2Proof.Machine

section
variable (s : State) (w : ResponseWord) (a : BitVec 32) (v : Byte) (nbits n : Nat)

@[simp] theorem State.respond_lv : (s.respond w).lv = s.lv := rfl
@[simp] theorem State.respond_up : (s.respond w).up = s.up := rfl
@[simp] theorem State.respond_lut : (s.respond w).lut = s.lut := rfl
@[simp] theorem State.respond_mem : (s.respond w).mem = s.mem := rfl
@[simp] theorem State.respond_host : (s.respond w).host = s.host := rfl
@[simp] theorem State.respond_responses : (s.respond w).responses = s.responses ++ [w] := rfl

@[simp] theorem State.hostWrite_lv : (s.hostWrite a v).lv = s.lv := rfl
@[simp] theorem State.hostWrite_up : (s.hostWrite a v).up = s.up := rfl
@[simp] theorem State.hostWrite_lut : (s.hostWrite a v).lut = s.lut := rfl
@[simp] theorem State.hostWrite_mem : (s.hostWrite a v).mem = s.mem.write a.toNat v := rfl
@[simp] theorem State.hostWrite_host : (s.hostWrite a v).host = s.host := rfl
@[simp] theorem State.hostWrite_responses : (s.hostWrite a v).responses = s.responses := rfl

@[simp] theorem State.afterReset_lv : s.afterReset.lv = LevelRegs.reset := rfl
@[simp] theorem State.afterReset_up : s.afterReset.up = UnpackRegs.reset := rfl
@[simp] theorem State.afterReset_lut : s.afterReset.lut = Table.reset := rfl
@[simp] theorem State.afterReset_mem : s.afterReset.mem = s.mem := rfl
@[simp] theorem State.afterReset_host : s.afterReset.host = s.host := rfl
@[simp] theorem State.afterReset_responses : s.afterReset.responses = s.responses := rfl

@[simp] theorem State.rebuildLut_lv : s.rebuildLut.lv = s.lv := rfl
@[simp] theorem State.rebuildLut_up : s.rebuildLut.up = s.up := rfl
@[simp] theorem State.rebuildLut_lut : s.rebuildLut.lut = s.lv.table := rfl
@[simp] theorem State.rebuildLut_mem : s.rebuildLut.mem = s.mem := rfl
@[simp] theorem State.rebuildLut_host : s.rebuildLut.host = s.host := rfl
@[simp] theorem State.rebuildLut_responses : s.rebuildLut.responses = s.responses := rfl

@[simp] theorem State.withFetchWord_lv : (s.withFetchWord nbits n).lv = s.lv := rfl
@[simp] theorem State.withFetchWord_up : (s.withFetchWord nbits n).up = s.up := rfl
@[simp] theorem State.withFetchWord_lut : (s.withFetchWord nbits n).lut = s.lut := rfl
@[simp] theorem State.withFetchWord_mem : (s.withFetchWord nbits n).mem = s.mem := rfl
@[simp] theorem State.withFetchWord_responses : (s.withFetchWord nbits n).responses = s.responses := rfl
@[simp] theorem State.withFetchWord_host :
    (s.withFetchWord nbits n).host = .command (BitVec.ofNat 64 (n % 2 ^ nbits)) :: s.host := rfl

end

/-! ### Reset -/

@[simp] theorem State.reset_lv : State.reset.lv = LevelRegs.reset := rfl
@[simp] theorem State.reset_up : State.reset.up = UnpackRegs.reset := rfl
@[simp] theorem State.reset_lut : State.reset.lut = Table.reset := rfl
@[simp] theorem State.reset_mem : State.reset.mem = [] := rfl
@[simp] theorem State.reset_host : State.reset.host = [] := rfl
@[simp] theorem State.reset_responses : State.reset.responses = [] := rfl

/-! ### What a step does, by the host's action -/

theorem step_idle {s : State} (h : s.host = []) : step s = .next s := by
  simp [step, State.fetch, h]

theorem step_command {s : State} {w : CommandWord} {rest : List HostAction} (h : s.host = .command w :: rest) :
    step s = runCommand w { s with host := rest } := by
  simp [step, State.fetch, h]

theorem step_writeByte {s : State} {a : BitVec 32} {v : Byte} {rest : List HostAction}
    (h : s.host = .writeByte a v :: rest) :
    step s = .next (State.hostWrite { s with host := rest } a v) := by
  simp [step, State.fetch, h]

theorem step_reset {s : State} {rest : List HostAction} (h : s.host = .reset :: rest) :
    step s = .next (State.afterReset { s with host := rest }) := by
  simp [step, State.fetch, h]

theorem step_resetDuring {s : State} {w : CommandWord} {k : Nat} {rest : List HostAction}
    (h : s.host = .resetDuring w k :: rest) : step s = resetDuring w k { s with host := rest } := by
  simp [step, State.fetch, h]

end Sys2Proof.Machine
end

