-- ==== Sys2Proof/Laws/Memory.lean ====
section
/-! SUPPORT. The laws of memory: read after write, the canonical form, and little-endian accesses
(spec/20_memory.md rules R60 to R62). -/

namespace Sys2Proof.Machine

/-! ### The canonical form -/

theorem Memory.wfFrom_mono {lo lo' : Nat} {m : Memory} (h : lo' ≤ lo) (hm : m.wfFrom lo = true) :
    m.wfFrom lo' = true := by
  cases m with
  | nil => rfl
  | cons c rest =>
    obtain ⟨k, v⟩ := c
    simp only [Memory.wfFrom, Bool.and_eq_true, decide_eq_true_eq] at hm ⊢
    exact ⟨⟨⟨by omega, hm.1.1.2⟩, hm.1.2⟩, hm.2⟩

theorem Memory.read_below {m : Memory} {lo a : Nat} (hm : m.wfFrom lo = true) (h : a < lo) :
    m.read a = Config.unlistedByte := by
  induction m generalizing lo with
  | nil => rfl
  | cons c rest ih =>
    obtain ⟨k, v⟩ := c
    simp only [Memory.wfFrom, Bool.and_eq_true, decide_eq_true_eq] at hm
    have hk : k ≠ a := by omega
    rw [Memory.read, if_neg hk]
    exact ih hm.2 (by omega)

theorem Memory.write_wfFrom {m : Memory} {lo a : Nat} {v : Byte} (hm : m.wfFrom lo = true) (hlo : lo ≤ a)
    (ha : a < Config.memorySize) : (m.write a v).wfFrom lo = true := by
  induction m generalizing lo with
  | nil =>
    rw [Memory.write]
    split
    · rfl
    · simp_all [Memory.wfFrom]
  | cons c rest ih =>
    obtain ⟨k, x⟩ := c
    have hm' := hm
    simp only [Memory.wfFrom, Bool.and_eq_true, decide_eq_true_eq] at hm
    rw [Memory.write]
    split
    · split
      · exact hm'
      · simp only [Memory.wfFrom, Bool.and_eq_true, decide_eq_true_eq]
        refine ⟨⟨⟨hlo, ha⟩, ‹_›⟩, ⟨⟨⟨by omega, hm.1.1.2⟩, hm.1.2⟩, hm.2⟩⟩
    · split
      · split
        · exact Memory.wfFrom_mono (by omega) hm.2
        · subst_vars
          simp only [Memory.wfFrom, Bool.and_eq_true, decide_eq_true_eq]
          exact ⟨⟨⟨hlo, ha⟩, ‹_›⟩, hm.2⟩
      · simp only [Memory.wfFrom, Bool.and_eq_true, decide_eq_true_eq]
        exact ⟨hm.1, ih hm.2 (by omega)⟩

/-- A byte write inside the address space keeps the canonical form. -/
theorem Memory.write_wf {m : Memory} {a : Nat} {v : Byte} (hm : m.wf = true) (ha : a < Config.memorySize) :
    (m.write a v).wf = true :=
  Memory.write_wfFrom hm (Nat.zero_le _) ha

/-! ### Reading after writing -/

theorem Memory.read_write_same_from {m : Memory} {lo a : Nat} {v : Byte} (hm : m.wfFrom lo = true) :
    (m.write a v).read a = v := by
  induction m generalizing lo with
  | nil =>
    rw [Memory.write]
    split
    · simp_all [Memory.read]
    · simp [Memory.read]
  | cons c rest ih =>
    obtain ⟨k, x⟩ := c
    have hm' := hm
    simp only [Memory.wfFrom, Bool.and_eq_true, decide_eq_true_eq] at hm
    rw [Memory.write]
    split
    · split
      · rw [Memory.read, if_neg (by omega), Memory.read_below hm.2 (by omega)]
        exact (‹v = _›).symm
      · simp [Memory.read]
    · split
      · split
        · rw [Memory.read_below hm.2 (by omega)]
          exact (‹v = _›).symm
        · simp [Memory.read]
      · rw [Memory.read, if_neg (by omega)]
        exact ih hm.2

/-- Reading the byte just written gives the value written. -/
theorem Memory.read_write_same {m : Memory} {a : Nat} {v : Byte} (hm : m.wf = true) :
    (m.write a v).read a = v :=
  Memory.read_write_same_from hm

/-- A byte write leaves every other byte alone. -/
theorem Memory.read_write_other {m : Memory} {a b : Nat} {v : Byte} (h : b ≠ a) :
    (m.write a v).read b = m.read b := by
  induction m with
  | nil =>
    rw [Memory.write]
    split
    · rfl
    · simp [Memory.read, Ne.symm h]
  | cons c rest ih =>
    obtain ⟨k, x⟩ := c
    rw [Memory.write]
    split
    · split
      · rfl
      · rw [Memory.read, if_neg (Ne.symm h)]
    · split
      · have hk : k ≠ b := by omega
        split
        · rw [Memory.read, if_neg hk]
        · rw [Memory.read, if_neg (Ne.symm h), Memory.read, if_neg hk]
      · rw [Memory.read, Memory.read]
        split
        · rfl
        · exact ih

theorem Memory.read_write {m : Memory} {a b : Nat} {v : Byte} (hm : m.wf = true) :
    (m.write a v).read b = if b = a then v else m.read b := by
  split
  · subst_vars; exact Memory.read_write_same hm
  · exact Memory.read_write_other ‹_›

theorem Memory.ext_from {m m' : Memory} {lo : Nat} (hm : m.wfFrom lo = true) (hm' : m'.wfFrom lo = true)
    (h : ∀ a, m.read a = m'.read a) : m = m' := by
  induction m generalizing m' lo with
  | nil =>
    cases m' with
    | nil => rfl
    | cons c rest =>
      obtain ⟨k, v⟩ := c
      simp only [Memory.wfFrom, Bool.and_eq_true, decide_eq_true_eq] at hm'
      have := h k
      simp only [Memory.read, if_true] at this
      exact absurd this.symm hm'.1.2
  | cons c rest ih =>
    obtain ⟨k, v⟩ := c
    have hm0 := hm
    simp only [Memory.wfFrom, Bool.and_eq_true, decide_eq_true_eq] at hm
    cases m' with
    | nil =>
      have := h k
      simp only [Memory.read, if_true] at this
      exact absurd this hm.1.2
    | cons c' rest' =>
      obtain ⟨k', v'⟩ := c'
      have hm0' := hm'
      simp only [Memory.wfFrom, Bool.and_eq_true, decide_eq_true_eq] at hm'
      have hkk : k = k' := by
        rcases Nat.lt_trichotomy k k' with hlt | heq | hgt
        · have := h k
          rw [Memory.read, if_pos rfl, Memory.read, if_neg (by omega),
            Memory.read_below hm'.2 (by omega)] at this
          exact absurd this hm.1.2
        · exact heq
        · have := h k'
          rw [Memory.read, if_neg (by omega), Memory.read_below hm.2 (by omega), Memory.read,
            if_pos rfl] at this
          exact absurd this.symm hm'.1.2
      subst hkk
      have hv : v = v' := by
        have := h k
        simpa [Memory.read] using this
      subst hv
      have hrest : rest = rest' := by
        refine ih hm.2 hm'.2 fun a => ?_
        by_cases hak : k = a
        · subst hak
          rw [Memory.read_below hm.2 (by omega), Memory.read_below hm'.2 (by omega)]
        · have := h a
          rwa [Memory.read, if_neg hak, Memory.read, if_neg hak] at this
      rw [hrest]

/-- Two memories in canonical form that read the same everywhere are the same data. -/
theorem Memory.ext_wf {m m' : Memory} (hm : m.wf = true) (hm' : m'.wf = true)
    (h : ∀ a, m.read a = m'.read a) : m = m' :=
  Memory.ext_from hm hm' h

/-! ### Little-endian accesses -/

theorem Memory.putLittleEndian_wf {m : Memory} {a n v : Nat} (hm : m.wf = true)
    (h : a + n ≤ Config.memorySize) : (m.putLittleEndian a n v).wf = true := by
  induction n generalizing m a v with
  | zero => exact hm
  | succ n ih =>
    rw [Memory.putLittleEndian]
    exact ih (Memory.write_wf hm (by omega)) (by omega)

/-- What one byte reads as after a little-endian write: byte `b - a` of the value inside the write, what it read
before outside it. -/
theorem Memory.read_putLittleEndian {m : Memory} {a n v b : Nat} (hm : m.wf = true)
    (h : a + n ≤ Config.memorySize) :
    (m.putLittleEndian a n v).read b =
      if a ≤ b ∧ b < a + n then BitVec.ofNat 8 (v / 256 ^ (b - a)) else m.read b := by
  induction n generalizing m a v with
  | zero => rw [Memory.putLittleEndian, if_neg (by omega)]
  | succ n ih =>
    rw [Memory.putLittleEndian, ih (Memory.write_wf hm (by omega)) (by omega), Memory.read_write hm]
    by_cases hab : b = a
    · subst hab
      rw [if_neg (by omega), if_pos rfl, if_pos (by omega)]
      simp
    · by_cases hin : a + 1 ≤ b ∧ b < a + 1 + n
      · rw [if_pos hin, if_pos (by omega), Nat.div_div_eq_div_mul]
        congr 2
        rw [show b - a = (b - (a + 1)) + 1 by omega, Nat.pow_succ, Nat.mul_comm]
      · rw [if_neg hin, if_neg hab, if_neg (by omega)]

theorem Memory.littleEndian_congr {m m' : Memory} {a n : Nat}
    (h : ∀ b, a ≤ b → b < a + n → m.read b = m'.read b) : m.littleEndian a n = m'.littleEndian a n := by
  induction n generalizing a with
  | zero => rfl
  | succ n ih =>
    rw [Memory.littleEndian, Memory.littleEndian, h a (by omega) (by omega),
      ih fun b h1 h2 => h b (by omega) (by omega)]

theorem Memory.littleEndian_lt (m : Memory) (a n : Nat) : m.littleEndian a n < 256 ^ n := by
  induction n generalizing a with
  | zero => simp [Memory.littleEndian]
  | succ n ih =>
    have h1 := (m.read a).isLt
    have h2 := ih (a + 1)
    rw [Memory.littleEndian, Nat.pow_succ]
    omega

/-- Reading back what was written (R61). -/
theorem Memory.littleEndian_put_same {m : Memory} {a n v : Nat} (hm : m.wf = true)
    (h : a + n ≤ Config.memorySize) (hv : v < 256 ^ n) :
    (m.putLittleEndian a n v).littleEndian a n = v := by
  have key : ∀ n a w, a + n ≤ Config.memorySize → ∀ m' : Memory,
      (∀ b, a ≤ b → b < a + n → m'.read b = BitVec.ofNat 8 (w / 256 ^ (b - a))) →
      w < 256 ^ n → m'.littleEndian a n = w := by
    intro n
    induction n with
    | zero => intro a w _ m' _ hw; simp at hw; simp [Memory.littleEndian, hw]
    | succ n ih =>
      intro a w hin m' hb hw
      rw [Memory.littleEndian, hb a (by omega) (by omega), ih (a + 1) (w / 256) (by omega) m' ?_ ?_]
      · simp only [Nat.sub_self, Nat.pow_zero, Nat.div_one, BitVec.toNat_ofNat]
        omega
      · intro b h1 h2
        rw [hb b (by omega) (by omega), Nat.div_div_eq_div_mul,
          show b - a = (b - (a + 1)) + 1 by omega, Nat.pow_succ, Nat.mul_comm]
      · rw [Nat.pow_succ] at hw
        omega
  refine key n a v h _ (fun b h1 h2 => ?_) hv
  rw [Memory.read_putLittleEndian hm h, if_pos ⟨h1, h2⟩]

/-! ### `MemRead` and `MemWrite` -/

theorem Memory.memRead_eq {m : Memory} {a n : Nat} (h : a + n ≤ Config.memorySize) :
    m.memRead a n = some (m.littleEndian a n) := if_pos h

theorem Memory.memWrite_eq {m : Memory} {a n v : Nat} (h : a + n ≤ Config.memorySize) :
    m.memWrite a n v = some (m.putLittleEndian a n v) := if_pos h

/-- Everything a defined `MemWrite` does. -/
theorem Memory.memWrite_spec {m m' : Memory} {a n v : Nat} (hw : m.memWrite a n v = some m') (hm : m.wf = true) :
    a + n ≤ Config.memorySize ∧ m'.wf = true ∧
      ∀ b, m'.read b = if a ≤ b ∧ b < a + n then BitVec.ofNat 8 (v / 256 ^ (b - a)) else m.read b := by
  rw [Memory.memWrite] at hw
  split at hw
  · rename_i h
    cases hw
    exact ⟨h, Memory.putLittleEndian_wf hm h, fun b => Memory.read_putLittleEndian hm h⟩
  · cases hw

/-! ### Replaying a sequence of stores -/

theorem Memory.replay_append (m : Memory) (xs ys : List Store) :
    m.replay (xs ++ ys) = (m.replay xs).bind fun m' => m'.replay ys := by
  induction xs generalizing m with
  | nil => rfl
  | cons w rest ih =>
    simp only [List.cons_append, Memory.replay]
    split
    · rfl
    · exact ih _

/-- A beginning of a sequence of stores that can be replayed can be replayed. -/
theorem Memory.replay_take {m m' : Memory} {ws : List Store} (h : m.replay ws = some m') (k : Nat) :
    ∃ m'', m.replay (ws.take k) = some m'' := by
  rw [← List.take_append_drop k ws, Memory.replay_append] at h
  cases hk : m.replay (ws.take k) with
  | none => rw [hk] at h; cases h
  | some m'' => exact ⟨m'', rfl⟩

theorem Memory.replay_wf {m m' : Memory} {ws : List Store} (hm : m.wf = true) (h : m.replay ws = some m') :
    m'.wf = true := by
  induction ws generalizing m with
  | nil => cases h; exact hm
  | cons w rest ih =>
    rw [Memory.replay] at h
    split at h
    · cases h
    · exact ih (Memory.memWrite_spec ‹_› hm).2.1 h

/-- Replaying leaves every byte outside the stores alone. -/
theorem Memory.replay_read_other {m m' : Memory} {ws : List Store} {a : Nat} (hm : m.wf = true)
    (h : m.replay ws = some m') (ha : ∀ w ∈ ws, a ∉ w.addrs) : m'.read a = m.read a := by
  induction ws generalizing m with
  | nil => cases h; rfl
  | cons w rest ih =>
    rw [Memory.replay] at h
    split at h
    · cases h
    · rename_i m1 hw
      have hs := Memory.memWrite_spec hw hm
      have hna := ha w (List.mem_cons_self ..)
      rw [Store.addrs, List.mem_range'_1] at hna
      rw [ih hs.2.1 h fun w' hw' => ha w' (List.mem_cons_of_mem _ hw'), hs.2.2 a, if_neg (by omega)]

end Sys2Proof.Machine
end

