-- ==== Sys2Proof/Laws/Frame.lean ====
section
/-! SUPPORT. The row and column loop of a frame command (spec/20_memory.md rule R67), once for both kernels: an
invariant rule for the loop, and what a frame does to memory when each of its units reads one range of bytes and writes
another. -/

namespace Sys2Proof.Machine

/-! ### Invariants of the loops -/

/-- An invariant that each turn of a loop establishes for the next holds when the loop is done, and the loop is
done. -/
theorem forRange_invariant {n : Nat} {body : Nat → Transfer → Option Transfer} {t : Transfer}
    (P : Nat → Transfer → Prop) (h0 : P 0 t)
    (hstep : ∀ i x, i < n → P i x → ∃ y, body i x = some y ∧ P (i + 1) y) :
    ∃ y, forRange n body t = some y ∧ P n y := by
  induction n with
  | zero => exact ⟨t, rfl, h0⟩
  | succ n ih =>
    obtain ⟨y, hy, hP⟩ := ih fun i x hi => hstep i x (by omega)
    obtain ⟨z, hz, hP'⟩ := hstep n y (by omega) hP
    exact ⟨z, by rw [forRange, hy]; exact hz, hP'⟩

/-- The same for the rows and columns of a frame. -/
theorem frameLoop_invariant {rows units : Nat} {unit : Nat → Nat → Transfer → Option Transfer} {m : Memory}
    (P : Nat → Nat → Transfer → Prop) (h0 : P 0 0 ⟨m, []⟩)
    (hunit : ∀ r c t, r < rows → c < units → P r c t → ∃ t', unit r c t = some t' ∧ P r (c + 1) t')
    (hrow : ∀ r t, r < rows → P r units t → P (r + 1) 0 t) :
    ∃ t', frameLoop rows units unit m = some t' ∧ P rows 0 t' := by
  refine forRange_invariant (fun r t => P r 0 t) h0 fun r t hr hP => ?_
  obtain ⟨t', ht', hP'⟩ := forRange_invariant (fun c t => P r c t) hP fun c t hc => hunit r c t hr hc
  exact ⟨t', ht', hrow r t' hr hP'⟩

/-! ### Single accesses -/

theorem Transfer.read_eq {t : Transfer} {a n : Nat} (h : a + n ≤ Config.memorySize) :
    t.read a n = some (t.mem.littleEndian a n) := Memory.memRead_eq h

theorem Transfer.write_eq {t : Transfer} {a n v : Nat} (h : a + n ≤ Config.memorySize) :
    t.write a n v = some ⟨t.mem.putLittleEndian a n v, t.stores ++ [⟨a, n, v⟩]⟩ := by
  rw [Transfer.write, Memory.memWrite_eq h]

/-! ### What a frame does -/

/-- Unit `(r, c)` comes before unit `(r', c')` in the order of R67. -/
def Before (r c r' c' : Nat) : Prop := r < r' ∨ r = r' ∧ c < c'

/-- One unit (pixel or group) of a frame: it reads at most the `k` bytes from `src r c`, and writes exactly the `n`
bytes from `dst r c`, with values that depend on the bytes read alone. -/
structure UnitSpec (rows units : Nat) (unit : Nat → Nat → Transfer → Option Transfer) (src : Nat → Nat → Nat) (k : Nat)
    (dst : Nat → Nat → Nat) (n : Nat) (bytes : Nat → Nat → Memory → Nat → Byte)
    (stores : Nat → Nat → Memory → List Store) : Prop where
  total : ∀ r c t, r < rows → c < units → ∃ t', unit r c t = some t' ∧
    t'.stores = t.stores ++ stores r c t.mem ∧ t.mem.replay (stores r c t.mem) = some t'.mem
  effect : ∀ r c t t', r < rows → c < units → t.mem.wf = true → unit r c t = some t' →
    t'.mem.wf = true ∧ ∀ a, t'.mem.read a =
      if dst r c ≤ a ∧ a < dst r c + n then bytes r c t.mem (a - dst r c) else t.mem.read a
  reads : ∀ r c m m', (∀ a, src r c ≤ a → a < src r c + k → m.read a = m'.read a) →
    bytes r c m = bytes r c m'
  places : ∀ r c m m', (stores r c m).map Store.addr = (stores r c m').map Store.addr

section
variable {rows units k n : Nat} {unit : Nat → Nat → Transfer → Option Transfer} {src dst : Nat → Nat → Nat}
  {bytes : Nat → Nat → Memory → Nat → Byte} {stores : Nat → Nat → Memory → List Store} {m : Memory}

/-- A frame runs to completion, and its memory is its stores replayed in order (R67, R68). -/
theorem UnitSpec.completes (h : UnitSpec rows units unit src k dst n bytes stores) :
    ∃ t, frameLoop rows units unit m = some t ∧ m.replay t.stores = some t.mem := by
  refine frameLoop_invariant (fun _ _ t => m.replay t.stores = some t.mem) rfl ?_ fun _ _ _ hP => hP
  intro r c t hr hc hP
  obtain ⟨t', ht', hs, hm⟩ := h.total r c t hr hc
  exact ⟨t', ht', by rw [hs, Memory.replay_append, hP]; exact hm⟩

/-- The addresses a frame stores to, in order: they depend on the registers alone (R163, R164, R189). -/
theorem UnitSpec.addresses (h : UnitSpec rows units unit src k dst n bytes stores) (m0 : Memory) :
    ∃ t, frameLoop rows units unit m = some t ∧ t.stores.map Store.addr =
      (List.range rows).flatMap fun r =>
        (List.range units).flatMap fun c => (stores r c m0).map Store.addr := by
  refine Exists.imp ?_ (frameLoop_invariant (unit := unit) (m := m) (rows := rows) (units := units)
    (fun r c t => t.stores.map Store.addr =
      ((List.range r).flatMap fun r' =>
        (List.range units).flatMap fun c' => (stores r' c' m0).map Store.addr) ++
      (List.range c).flatMap fun c' => (stores r c' m0).map Store.addr) (by simp) ?_ ?_)
  · rintro t ⟨ht, hP⟩
    exact ⟨ht, by simpa using hP⟩
  · intro r c t hr hc hP
    obtain ⟨t', ht', hs, -⟩ := h.total r c t hr hc
    refine ⟨t', ht', ?_⟩
    rw [hs, List.map_append, hP, h.places r c t.mem m0, List.range_succ (n := c), List.flatMap_append,
      List.append_assoc]
    simp
  · intro r t hr hP
    rw [hP, List.range_succ (n := r), List.flatMap_append]
    simp

/-- A frame keeps memory canonical and leaves every byte outside its units' destinations alone (R75). -/
theorem UnitSpec.frame (h : UnitSpec rows units unit src k dst n bytes stores) (hm : m.wf = true) :
    ∃ t, frameLoop rows units unit m = some t ∧ t.mem.wf = true ∧
      ∀ a, (∀ r c, r < rows → c < units → ¬(dst r c ≤ a ∧ a < dst r c + n)) → t.mem.read a = m.read a := by
  refine frameLoop_invariant (fun _ _ t => t.mem.wf = true ∧ ∀ a,
    (∀ r c, r < rows → c < units → ¬(dst r c ≤ a ∧ a < dst r c + n)) → t.mem.read a = m.read a)
    ⟨hm, fun _ _ => rfl⟩ ?_ fun _ _ _ hP => hP
  intro r c t hr hc hP
  obtain ⟨t', ht', -, -⟩ := h.total r c t hr hc
  obtain ⟨hw, he⟩ := h.effect r c t t' hr hc hP.1 ht'
  exact ⟨t', ht', hw, fun a ha => by rw [he a, if_neg (ha r c hr hc)]; exact hP.2 a ha⟩

/-- When no unit reads a byte that an earlier unit wrote, and no two units write the same byte, every unit writes what
the memory at the start of the frame calls for (R69, R163). -/
theorem UnitSpec.result (h : UnitSpec rows units unit src k dst n bytes stores) (hm : m.wf = true)
    (hsep : ∀ r c r' c' a, r < rows → c < units → r' < rows → c' < units →
      dst r c ≤ a → a < dst r c + n → dst r' c' ≤ a → a < dst r' c' + n → r = r' ∧ c = c')
    (hread : ∀ r c r' c' a, r < rows → c < units → r' < rows → c' < units → Before r c r' c' →
      dst r c ≤ a → a < dst r c + n → ¬(src r' c' ≤ a ∧ a < src r' c' + k)) :
    ∃ t, frameLoop rows units unit m = some t ∧
      ∀ r c, r < rows → c < units → ∀ j, j < n → t.mem.read (dst r c + j) = bytes r c m j := by
  refine Exists.imp ?_ (frameLoop_invariant (unit := unit) (m := m) (rows := rows) (units := units)
    (fun r c t => t.mem.wf = true ∧ ∀ a,
      (∀ r' c', r' < rows → c' < units → Before r' c' r c → dst r' c' ≤ a → a < dst r' c' + n →
        t.mem.read a = bytes r' c' m (a - dst r' c')) ∧
      ((∀ r' c', r' < rows → c' < units → Before r' c' r c → ¬(dst r' c' ≤ a ∧ a < dst r' c' + n)) →
        t.mem.read a = m.read a)) ?_ ?_ ?_)
  · rintro t ⟨ht, -, hP⟩
    refine ⟨ht, fun r c hr hc j hj => ?_⟩
    have := (hP (dst r c + j)).1 r c hr hc (Or.inl hr) (by omega) (by omega)
    rwa [Nat.add_sub_cancel_left] at this
  · refine ⟨hm, fun a => ⟨fun r' c' _ _ hb => ?_, fun _ => rfl⟩⟩
    rcases hb with hb | hb <;> omega
  · intro r c t hr hc hP
    obtain ⟨t', ht', -, -⟩ := h.total r c t hr hc
    obtain ⟨hw, he⟩ := h.effect r c t t' hr hc hP.1 ht'
    have hbytes : bytes r c t.mem = bytes r c m := by
      refine h.reads r c _ _ fun a ha1 ha2 => (hP.2 a).2 fun r' c' hr' hc' hb hin => ?_
      exact hread r' c' r c a hr' hc' hr hc hb hin.1 hin.2 ⟨ha1, ha2⟩
    refine ⟨t', ht', hw, fun a => ⟨fun r' c' hr' hc' hb h1 h2 => ?_, fun hnone => ?_⟩⟩
    · by_cases hin : dst r c ≤ a ∧ a < dst r c + n
      · obtain ⟨rfl, rfl⟩ := hsep r c r' c' a hr hc hr' hc' hin.1 hin.2 h1 h2
        rw [he a, if_pos hin, hbytes]
      · rw [he a, if_neg hin]
        refine (hP.2 a).1 r' c' hr' hc' ?_ h1 h2
        rcases hb with hb | ⟨rfl, hb⟩
        · exact Or.inl hb
        · rcases Nat.lt_or_ge c' c with hlt | hge
          · exact Or.inr ⟨rfl, hlt⟩
          · have : c' = c := by omega
            exact absurd ⟨h1, h2⟩ (this ▸ hin)
    · rw [he a, if_neg (hnone r c hr hc (Or.inr ⟨rfl, by omega⟩))]
      refine (hP.2 a).2 fun r' c' hr' hc' hb => hnone r' c' hr' hc' ?_
      rcases hb with hb | hb
      · exact Or.inl hb
      · exact Or.inr ⟨hb.1, by omega⟩
  · intro r t hr hP
    refine ⟨hP.1, fun a => ⟨fun r' c' hr' hc' hb h1 h2 => (hP.2 a).1 r' c' hr' hc' ?_ h1 h2,
      fun hnone => (hP.2 a).2 fun r' c' hr' hc' hb => hnone r' c' hr' hc' ?_⟩⟩
    · rcases hb with hb | hb
      · rcases Nat.lt_or_ge r' r with hlt | hge
        · exact Or.inl hlt
        · exact Or.inr ⟨by omega, hc'⟩
      · omega
    · rcases hb with hb | hb
      · exact Or.inl (by omega)
      · exact Or.inl (by omega)

end

/-! ### Where the elements of two buffers lie -/

/-- A byte inside a row lies inside the buffer (R63). -/
theorem row_offset_lt {rows stride r x : Nat} (hr : r < rows) (hx : x < stride) : r * stride + x < rows * stride := by
  have := Nat.mul_le_mul_right stride (show r + 1 ≤ rows by omega)
  rw [Nat.succ_mul] at this
  omega

/-- Two offsets in rows of one buffer that are the same byte are in the same row at the same place. -/
theorem row_offset_inj {stride r x r' x' : Nat} (hx : x < stride) (hx' : x' < stride)
    (h : r * stride + x = r' * stride + x') : r = r' ∧ x = x' := by
  rcases Nat.lt_trichotomy r r' with hlt | heq | hgt
  · have := Nat.mul_le_mul_right stride (show r + 1 ≤ r' by omega)
    rw [Nat.succ_mul] at this
    omega
  · subst heq; omega
  · have := Nat.mul_le_mul_right stride (show r' + 1 ≤ r by omega)
    rw [Nat.succ_mul] at this
    omega

end Sys2Proof.Machine
end

