-- ==== Sys2Proof/Laws/Level.lean ====
section
/-! SUPPORT. The validation that both frame commands share, and what one pixel of `LEVEL` does
(spec/42_level_transform.md). -/

namespace Sys2Proof.Machine

/-- The six common tests all pass exactly on the frames of `FrameShape.Valid` (R161). -/
theorem FrameShape.firstFailure_checks_none (f : FrameShape) : firstFailure f.checks = none ↔ f.Valid := by
  constructor
  · intro h
    simp only [FrameShape.checks, firstFailure, decide_eq_true_eq] at h
    split_ifs at h with h1 h2 h3 h4 h5 h6
    simp only [Config.strideAlign_eq, Config.memorySize_eq] at h1 h3 h4
    constructor <;> omega
  · intro h
    have := h.inStrideAligned
    have := h.outStrideAligned
    have := h.inStrideFits
    have := h.outStrideFits
    have := h.srcAligned
    have := h.dstAligned
    have := h.srcInSpace
    have := h.dstInSpace
    have := h.srcLarge
    have := h.dstLarge
    simp only [FrameShape.checks, firstFailure, decide_eq_true_eq]
    simp only [Config.strideAlign_eq, Config.memorySize_eq]
    rw [if_neg (by omega), if_neg (by omega), if_neg (by omega), if_neg (by omega), if_neg (by omega),
      if_neg (by omega)]

theorem levelCheck_none (p : LevelRegs) : levelCheck p = none ↔ p.Accepts := p.shape.firstFailure_checks_none

/-- A piece of a row lies inside the address space (R63). -/
theorem element_in_space {rows stride base size r j e n : Nat} (hr : r < rows) (hfit : j * e + n ≤ stride)
    (hlarge : rows * stride ≤ size) (hspace : base + size ≤ 2 ^ 32) :
    elementAddr base stride r j e + n ≤ Config.memorySize := by
  have := Nat.mul_le_mul_right stride (show r + 1 ≤ rows by omega)
  rw [Nat.succ_mul] at this
  rw [elementAddr, Config.memorySize_eq]
  omega

section
variable {p : LevelRegs} {lut : Table}

theorem LevelRegs.src_in_space (h : p.Accepts) {r c : Nat} (hr : r < p.height.toNat) (hc : c < p.width.toNat) :
    p.srcAddr r c + 2 ≤ Config.memorySize :=
  element_in_space hr (by have := h.inStrideFits; simp only [LevelRegs.shape] at this; omega) h.srcLarge h.srcInSpace

theorem LevelRegs.dst_in_space (h : p.Accepts) {r c : Nat} (hr : r < p.height.toNat) (hc : c < p.width.toNat) :
    p.dstAddr r c + 1 ≤ Config.memorySize :=
  element_in_space hr (by have := h.outStrideFits; simp only [LevelRegs.shape] at this; omega) h.dstLarge h.dstInSpace

/-- The output byte that the memory calls for at pixel `(r, c)`. -/
def LevelRegs.pixelByte (p : LevelRegs) (lut : Table) (r c : Nat) (m : Memory) : Byte :=
  levelSample p lut (p.assemble (m.littleEndian (p.srcAddr r c) 2))

/-- One pixel of `LEVEL` reads two bytes and writes one (R160, R66). -/
theorem levelPixel_spec (h : p.Accepts) :
    UnitSpec p.height.toNat p.width.toNat (levelPixel p lut) p.srcAddr 2 p.dstAddr 1
      (fun r c m _ => p.pixelByte lut r c m)
      (fun r c m => [⟨p.dstAddr r c, 1, (p.pixelByte lut r c m).toNat⟩]) where
  total r c t hr hc := by
    refine ⟨_, by rw [levelPixel, Transfer.read_eq (p.src_in_space h hr hc)]; exact
      Transfer.write_eq (p.dst_in_space h hr hc), rfl, ?_⟩
    simp only [Memory.replay, Memory.memWrite_eq (p.dst_in_space h hr hc)]
    rfl
  effect r c t t' hr hc hm ht := by
    rw [levelPixel, Transfer.read_eq (p.src_in_space h hr hc)] at ht
    simp only [Transfer.write_eq (p.dst_in_space h hr hc), Option.some.injEq] at ht
    subst ht
    refine ⟨Memory.putLittleEndian_wf hm (p.dst_in_space h hr hc), fun a => ?_⟩
    simp only [Memory.read_putLittleEndian hm (p.dst_in_space h hr hc)]
    split
    · rename_i ha
      rw [show a - p.dstAddr r c = 0 by omega, Nat.pow_zero, Nat.div_one, BitVec.ofNat_toNat, BitVec.setWidth_eq]
      rfl
    · rfl
  reads r c m m' hrd := by
    rw [LevelRegs.pixelByte, LevelRegs.pixelByte, Memory.littleEndian_congr hrd]
  places r c m m' := rfl

/-- Two bytes read little-endian and swapped on demand are the sample of R210. -/
theorem LevelRegs.assemble_littleEndian (p : LevelRegs) (m : Memory) (a : Nat) :
    p.assemble (m.littleEndian a 2) = sample16 (m.read a) (m.read (a + 1)) p.endianIn := by
  have hs : BitVec.ofNat 16 (m.littleEndian a 2) = m.read (a + 1) ++ m.read a := by
    apply BitVec.eq_of_toNat_eq
    have h0 := (m.read a).isLt
    have h1 := (m.read (a + 1)).isLt
    simp only [Memory.littleEndian, BitVec.toNat_append, BitVec.toNat_ofNat]
    rw [Nat.shiftLeft_eq, Nat.mul_comm (m.read (a + 1)).toNat (2 ^ 8), ← Nat.two_pow_add_eq_or_of_lt h0]
    omega
  rw [LevelRegs.assemble, sample16, hs]
  split
  · rw [byteSwap, BitVec.extractLsb'_append_eq_right, BitVec.extractLsb'_append_eq_left]
  · rfl

/-- The destination bytes of different pixels differ (R164). -/
theorem LevelRegs.dst_separate (h : p.Accepts) {r c r' c' a : Nat} (hc : c < p.width.toNat)
    (hc' : c' < p.width.toNat) (h1 : p.dstAddr r c ≤ a) (h2 : a < p.dstAddr r c + 1) (h3 : p.dstAddr r' c' ≤ a)
    (h4 : a < p.dstAddr r' c' + 1) : r = r' ∧ c = c' := by
  have := h.outStrideFits
  simp only [LevelRegs.shape] at this
  simp only [LevelRegs.dstAddr, elementAddr] at h1 h2 h3 h4
  exact row_offset_inj (stride := p.outStride.toNat) (by omega) (by omega) (by omega)

/-- With disjoint buffers, and in place, no pixel reads a byte that an earlier pixel wrote (R69, R163). -/
theorem LevelRegs.no_hazard (h : p.Accepts) (hd : p.shape.Disjoint ∨ p.shape.InPlace) {r c r' c' a : Nat}
    (hr : r < p.height.toNat) (hc : c < p.width.toNat) (hr' : r' < p.height.toNat) (hc' : c' < p.width.toNat)
    (hb : Before r c r' c') (h1 : p.dstAddr r c ≤ a) (h2 : a < p.dstAddr r c + 1) :
    ¬(p.srcAddr r' c' ≤ a ∧ a < p.srcAddr r' c' + 2) := by
  have hi := h.inStrideFits
  have ho := h.outStrideFits
  simp only [LevelRegs.shape] at hi ho
  simp only [LevelRegs.dstAddr, LevelRegs.srcAddr, elementAddr] at *
  rcases hd with hd | ⟨hd, hs⟩
  · have d1 := row_offset_lt (stride := p.outStride.toNat) hr (show c < p.outStride.toNat by omega)
    have d2 := row_offset_lt (stride := p.inStride.toNat) hr' (show 2 * c' + 1 < p.inStride.toNat by omega)
    simp only [FrameShape.Disjoint, LevelRegs.shape] at hd
    omega
  · simp only [LevelRegs.shape] at hd hs
    rw [hd, hs] at h1 h2
    rcases hb with hb | ⟨rfl, hb⟩
    · have := Nat.mul_le_mul_right p.inStride.toNat (show r + 1 ≤ r' by omega)
      rw [Nat.succ_mul] at this
      omega
    · omega

end

end Sys2Proof.Machine
end

