-- ==== Sys2Proof/Laws/Unpack.lean ====
section
/-! SUPPORT. The validation of `UNPACK`, and what one InterleavedByte pixel and one TenBitPacked group do
(spec/43_packed_unpacker.md). -/

namespace Sys2Proof.Machine

section
variable {p : UnpackRegs}

theorem UnpackRegs.isTenBit_iff : p.isTenBit = true ↔ p.layout = 1 := by simp [UnpackRegs.isTenBit]

theorem UnpackRegs.isInterleaved_iff : p.isInterleaved = true ↔ p.layout = 2 := by simp [UnpackRegs.isInterleaved]

/-- The validation of `UNPACK`, its two own tests in terms of the layout register (R182). -/
theorem unpackCheck_eq (p : UnpackRegs) : unpackCheck p =
    if p.layout ≠ 1 ∧ p.layout ≠ 2 then some (.configuration .unknownLayout)
    else if p.layout = 1 ∧ p.width.toNat % 3 ≠ 0 then some (.configuration .widthNotMultipleOf3)
    else firstFailure p.shape.checks := by
  rw [unpackCheck, firstFailure, firstFailure]
  simp only [Bool.and_eq_true, Bool.not_eq_true', ← Bool.not_eq_true, UnpackRegs.isTenBit_iff,
    UnpackRegs.isInterleaved_iff, decide_eq_true_eq, ne_eq]

/-- The validation of `UNPACK` passes exactly on the frames of the two layouts (R182). -/
theorem unpackCheck_none (p : UnpackRegs) : unpackCheck p = none ↔ p.AcceptsTenBit ∨ p.AcceptsInterleaved := by
  rw [UnpackRegs.AcceptsTenBit, UnpackRegs.AcceptsInterleaved, ← UnpackRegs.isTenBit_iff,
    ← UnpackRegs.isInterleaved_iff, ← FrameShape.firstFailure_checks_none, unpackCheck]
  simp only [firstFailure]
  by_cases h1 : p.isTenBit = true
  · have h2 : p.isInterleaved = false := by
      rw [UnpackRegs.isTenBit_iff] at h1
      simp [UnpackRegs.isInterleaved, h1]
    by_cases h3 : p.width.toNat % 3 = 0 <;> simp [h1, h2, h3]
  · have h1' : p.isTenBit = false := by simpa using h1
    by_cases h2 : p.isInterleaved = true
    · simp [h1', h2]
    · have h2' : p.isInterleaved = false := by simpa using h2
      simp [h1', h2']

/-! ### InterleavedByte -/

theorem UnpackRegs.AcceptsInterleaved.notTenBit (h : p.AcceptsInterleaved) : p.isTenBit = false := by
  simp [UnpackRegs.isTenBit, h.1]

theorem UnpackRegs.AcceptsInterleaved.srcFits (h : p.AcceptsInterleaved) :
    2 * p.width.toNat ≤ p.inStride.toNat := by
  have := h.2.inStrideFits
  simpa [UnpackRegs.shape, UnpackRegs.srcRowBytes, h.notTenBit] using this

theorem UnpackRegs.dstFits (h : p.shape.Valid) : 2 * p.width.toNat ≤ p.outStride.toNat := h.outStrideFits

theorem UnpackRegs.dst_in_space (h : p.shape.Valid) {r c : Nat} (hr : r < p.height.toNat) (hc : c < p.width.toNat) :
    p.dstAddr r c + 2 ≤ Config.memorySize :=
  element_in_space hr (by have := UnpackRegs.dstFits h; omega) h.dstLarge h.dstInSpace

theorem UnpackRegs.pair_in_space (h : p.AcceptsInterleaved) {r c : Nat} (hr : r < p.height.toNat)
    (hc : c < p.width.toNat) : p.pairAddr r c + 2 ≤ Config.memorySize :=
  element_in_space hr (by have := h.srcFits; omega) h.2.srcLarge h.2.srcInSpace

/-- The sample that the memory calls for at pixel `(r, c)` of an InterleavedByte frame (R183, R184). -/
def UnpackRegs.pairSample (p : UnpackRegs) (r c : Nat) (m : Memory) : Sample :=
  combine p (BitVec.ofNat 32 (m.littleEndian (p.pairAddr r c) 1))
    (BitVec.ofNat 32 (m.littleEndian (p.pairAddr r c + 1) 1))

/-- Byte `j` of a sample as it is stored: little-endian (R216). -/
def sampleByte (v : Sample) (j : Nat) : Byte := BitVec.ofNat 8 (v.toNat / 256 ^ j)

/-- The two bytes of a stored sample give the sample back. -/
theorem sampleByte_append (v : Sample) : sampleByte v 1 ++ sampleByte v 0 = v := by
  have h0 : (sampleByte v 0).toNat = v.toNat % 256 := by simp [sampleByte]
  have h1 : (sampleByte v 1).toNat = v.toNat / 256 := by have := v.isLt; simp [sampleByte]; omega
  apply BitVec.eq_of_toNat_eq
  rw [BitVec.toNat_append, h0, h1, Nat.shiftLeft_eq, Nat.mul_comm, ← Nat.two_pow_add_eq_or_of_lt (by omega)]
  omega

/-- One InterleavedByte pixel reads two bytes and writes two (R184, R66). -/
theorem interleavedPixel_spec (h : p.AcceptsInterleaved) :
    UnitSpec p.height.toNat p.width.toNat (interleavedPixel p) p.pairAddr 2 p.dstAddr 2
      (fun r c m j => sampleByte (p.pairSample r c m) j)
      (fun r c m => [⟨p.dstAddr r c, 2, (p.pairSample r c m).toNat⟩]) where
  total r c t hr hc := by
    have hs := UnpackRegs.pair_in_space h hr hc
    have hd := UnpackRegs.dst_in_space h.2 hr hc
    refine ⟨_, by
      rw [interleavedPixel, Transfer.read_eq (by omega), Transfer.read_eq (by omega)]
      exact Transfer.write_eq hd, rfl, ?_⟩
    simp only [Memory.replay, Memory.memWrite_eq hd]
    rfl
  effect r c t t' hr hc hm ht := by
    have hs := UnpackRegs.pair_in_space h hr hc
    have hd := UnpackRegs.dst_in_space h.2 hr hc
    rw [interleavedPixel, Transfer.read_eq (by omega), Transfer.read_eq (by omega)] at ht
    simp only [Transfer.store16, Transfer.write_eq hd, Option.some.injEq] at ht
    subst ht
    exact ⟨Memory.putLittleEndian_wf hm hd, fun a => Memory.read_putLittleEndian hm hd⟩
  reads r c m m' hrd := by
    rw [UnpackRegs.pairSample, UnpackRegs.pairSample,
      Memory.littleEndian_congr (n := 1) fun b h1 h2 => hrd b (by omega) (by omega),
      Memory.littleEndian_congr (a := p.pairAddr r c + 1) (n := 1) fun b h1 h2 => hrd b (by omega) (by omega)]
  places r c m m' := rfl

/-! ### TenBitPacked -/

theorem UnpackRegs.AcceptsTenBit.tenBit (h : p.AcceptsTenBit) : p.isTenBit = true := by
  simp [UnpackRegs.isTenBit, h.1]

theorem UnpackRegs.AcceptsTenBit.srcFits (h : p.AcceptsTenBit) :
    8 * (p.width.toNat / 3) ≤ p.inStride.toNat := by
  have := h.2.2.inStrideFits
  simpa [UnpackRegs.shape, UnpackRegs.srcRowBytes, h.tenBit] using this

theorem UnpackRegs.group_in_space (h : p.AcceptsTenBit) {r g : Nat} (hr : r < p.height.toNat)
    (hg : g < p.width.toNat / 3) : p.groupAddr r g + 8 ≤ Config.memorySize :=
  element_in_space hr (by have := h.srcFits; omega) h.2.2.srcLarge h.2.2.srcInSpace

/-- The first word of group `g` of row `r` (R185). -/
def UnpackRegs.groupWord0 (p : UnpackRegs) (r g : Nat) (m : Memory) : Word32 :=
  BitVec.ofNat 32 (m.littleEndian (p.groupAddr r g) 4)

/-- The second word of group `g` of row `r` (R185). -/
def UnpackRegs.groupWord1 (p : UnpackRegs) (r g : Nat) (m : Memory) : Word32 :=
  BitVec.ofNat 32 (m.littleEndian (p.groupAddr r g + 4) 4)

/-- The sample that the memory calls for at lane `k` of a group (R186). -/
def UnpackRegs.groupSample (p : UnpackRegs) (r g k : Nat) (m : Memory) : Sample :=
  tenBitLane p (p.groupWord0 r g m) (p.groupWord1 r g m) k

theorem UnpackRegs.dstAddr_lane (p : UnpackRegs) (r g k : Nat) :
    p.dstAddr r (3 * g + k) = p.dstAddr r (3 * g) + 2 * k := by
  simp only [UnpackRegs.dstAddr, elementAddr]
  omega

/-- The three writes of a group, in lane order (R186, R187). -/
def UnpackRegs.groupStores (p : UnpackRegs) (r g : Nat) (m : Memory) : List Store :=
  [⟨p.dstAddr r (3 * g + 0), 2, (p.groupSample r g 0 m).toNat⟩,
   ⟨p.dstAddr r (3 * g + 1), 2, (p.groupSample r g 1 m).toNat⟩,
   ⟨p.dstAddr r (3 * g + 2), 2, (p.groupSample r g 2 m).toNat⟩]

/-- What one group does (R187). -/
theorem tenBitGroup_eq (h : p.AcceptsTenBit) {r g : Nat} (hr : r < p.height.toNat) (hg : g < p.width.toNat / 3)
    (t : Transfer) :
    tenBitGroup p r g t = some
      ⟨((t.mem.putLittleEndian (p.dstAddr r (3 * g + 0)) 2 (p.groupSample r g 0 t.mem).toNat).putLittleEndian
        (p.dstAddr r (3 * g + 1)) 2 (p.groupSample r g 1 t.mem).toNat).putLittleEndian
        (p.dstAddr r (3 * g + 2)) 2 (p.groupSample r g 2 t.mem).toNat,
       t.stores ++ p.groupStores r g t.mem⟩ := by
  have hs := UnpackRegs.group_in_space h hr hg
  have hd : ∀ k, k < 3 → p.dstAddr r (3 * g + k) + 2 ≤ Config.memorySize :=
    fun k hk => UnpackRegs.dst_in_space h.2.2 hr (by omega)
  rw [tenBitGroup, Transfer.read_eq (by omega), Transfer.read_eq (by omega)]
  simp only [forRange, Option.bind_some, tenBitStore, Transfer.store16, Transfer.write_eq (hd 0 (by omega)),
    Transfer.write_eq (hd 1 (by omega)), Transfer.write_eq (hd 2 (by omega))]
  simp only [UnpackRegs.groupStores, List.append_assoc, List.cons_append, List.nil_append]
  rfl

/-- The memory after the three writes of a group, byte by byte. -/
theorem read_groupWrites {m : Memory} {d a : Nat} (v : Nat → Sample) (hm : m.wf = true)
    (hd : d + 6 ≤ Config.memorySize) :
    (((m.putLittleEndian d 2 (v 0).toNat).putLittleEndian (d + 2) 2 (v 1).toNat).putLittleEndian
        (d + 4) 2 (v 2).toNat).read a =
      if d ≤ a ∧ a < d + 6 then sampleByte (v ((a - d) / 2)) ((a - d) % 2) else m.read a := by
  have hw0 := Memory.putLittleEndian_wf (v := (v 0).toNat) hm (show d + 2 ≤ Config.memorySize by omega)
  have hw1 := Memory.putLittleEndian_wf (v := (v 1).toNat) hw0 (show d + 2 + 2 ≤ Config.memorySize by omega)
  rw [Memory.read_putLittleEndian hw1 (by omega), Memory.read_putLittleEndian hw0 (by omega),
    Memory.read_putLittleEndian hm (by omega)]
  by_cases ha : d ≤ a ∧ a < d + 6
  · obtain ⟨j, hj, rfl⟩ : ∃ j, j < 6 ∧ a = d + j := ⟨a - d, by omega, by omega⟩
    rw [if_pos ha, Nat.add_sub_cancel_left, sampleByte]
    rcases (show j / 2 = 0 ∨ j / 2 = 1 ∨ j / 2 = 2 by omega) with hk | hk | hk
    · rw [if_neg (by omega), if_neg (by omega), if_pos (by omega), hk, show j % 2 = j by omega]
    · rw [if_neg (by omega), if_pos (by omega), hk, show d + j - (d + 2) = j % 2 by omega]
    · rw [if_pos (by omega), hk, show d + j - (d + 4) = j % 2 by omega]
  · rw [if_neg ha, if_neg (by omega), if_neg (by omega), if_neg (by omega)]

theorem groupWrites_wf {m : Memory} {d v0 v1 v2 : Nat} (hm : m.wf = true) (hd : d + 6 ≤ Config.memorySize) :
    (((m.putLittleEndian d 2 v0).putLittleEndian (d + 2) 2 v1).putLittleEndian (d + 4) 2 v2).wf = true :=
  Memory.putLittleEndian_wf (Memory.putLittleEndian_wf (Memory.putLittleEndian_wf hm (by omega)) (by omega))
    (by omega)

theorem UnpackRegs.group_dst_in_space (h : p.AcceptsTenBit) {r g : Nat} (hr : r < p.height.toNat)
    (hg : g < p.width.toNat / 3) : p.dstAddr r (3 * g) + 6 ≤ Config.memorySize := by
  have := UnpackRegs.dst_in_space h.2.2 hr (show 3 * g + 2 < p.width.toNat by omega)
  rw [UnpackRegs.dstAddr_lane] at this
  omega

theorem UnpackRegs.groupSample_congr {r g : Nat} {m m' : Memory}
    (hrd : ∀ a, p.groupAddr r g ≤ a → a < p.groupAddr r g + 8 → m.read a = m'.read a) (k : Nat) :
    p.groupSample r g k m = p.groupSample r g k m' := by
  rw [UnpackRegs.groupSample, UnpackRegs.groupSample, UnpackRegs.groupWord0, UnpackRegs.groupWord1,
    UnpackRegs.groupWord0, UnpackRegs.groupWord1,
    Memory.littleEndian_congr (a := p.groupAddr r g) (n := 4) fun b h1 h2 => hrd b (by omega) (by omega),
    Memory.littleEndian_congr (a := p.groupAddr r g + 4) (n := 4) fun b h1 h2 => hrd b (by omega) (by omega)]

/-- One TenBitPacked group reads eight bytes and writes six (R187, R66). -/
theorem tenBitGroup_spec (h : p.AcceptsTenBit) :
    UnitSpec p.height.toNat (p.width.toNat / 3) (tenBitGroup p) p.groupAddr 8 (fun r g => p.dstAddr r (3 * g)) 6
      (fun r g m j => sampleByte (p.groupSample r g (j / 2) m) (j % 2)) p.groupStores where
  total r g t hr hg := by
    have hd := UnpackRegs.group_dst_in_space h hr hg
    refine ⟨_, tenBitGroup_eq h hr hg t, rfl, ?_⟩
    simp only [UnpackRegs.groupStores, UnpackRegs.dstAddr_lane, Memory.replay]
    rw [Memory.memWrite_eq (by omega)]
    simp only
    rw [Memory.memWrite_eq (by omega)]
    simp only
    rw [Memory.memWrite_eq (by omega)]
  effect r g t t' hr hg hm ht := by
    have hd := UnpackRegs.group_dst_in_space h hr hg
    rw [tenBitGroup_eq h hr hg, Option.some.injEq] at ht
    subst ht
    simp only [UnpackRegs.dstAddr_lane, Nat.add_zero, Nat.mul_one, Nat.reduceMul]
    exact ⟨groupWrites_wf hm hd, fun a => read_groupWrites (fun k => p.groupSample r g k t.mem) hm hd⟩
  reads r g m m' hrd := by
    funext j
    rw [UnpackRegs.groupSample_congr hrd]
  places r g m m' := by simp only [UnpackRegs.groupStores, List.map]

/-! ### Separation -/

/-- The destination bytes of different samples differ (R189). -/
theorem UnpackRegs.dst_separate (h : p.shape.Valid) {r c r' c' a : Nat} (hc : c < p.width.toNat)
    (hc' : c' < p.width.toNat) (h1 : p.dstAddr r c ≤ a) (h2 : a < p.dstAddr r c + 2) (h3 : p.dstAddr r' c' ≤ a)
    (h4 : a < p.dstAddr r' c' + 2) : r = r' ∧ c = c' := by
  have := UnpackRegs.dstFits h
  simp only [UnpackRegs.dstAddr, elementAddr] at h1 h2 h3 h4
  have := row_offset_inj (stride := p.outStride.toNat) (r := r) (r' := r')
    (x := a - p.dstBase.toNat - r * p.outStride.toNat) (x' := a - p.dstBase.toNat - r' * p.outStride.toNat)
    (by omega) (by omega) (by omega)
  obtain ⟨rfl, -⟩ := this
  exact ⟨rfl, by omega⟩

/-- The destination bytes of different groups differ (R189). -/
theorem UnpackRegs.group_separate (h : p.shape.Valid) {r g r' g' a : Nat} (hg : g < p.width.toNat / 3)
    (hg' : g' < p.width.toNat / 3) (h1 : p.dstAddr r (3 * g) ≤ a) (h2 : a < p.dstAddr r (3 * g) + 6)
    (h3 : p.dstAddr r' (3 * g') ≤ a) (h4 : a < p.dstAddr r' (3 * g') + 6) : r = r' ∧ g = g' := by
  have := UnpackRegs.dstFits h
  simp only [UnpackRegs.dstAddr, elementAddr] at h1 h2 h3 h4
  have := row_offset_inj (stride := p.outStride.toNat) (r := r) (r' := r')
    (x := a - p.dstBase.toNat - r * p.outStride.toNat) (x' := a - p.dstBase.toNat - r' * p.outStride.toNat)
    (by omega) (by omega) (by omega)
  obtain ⟨rfl, -⟩ := this
  exact ⟨rfl, by omega⟩

/-- With disjoint buffers, and in place, no pair is read after an earlier sample overwrote it (R69). -/
theorem UnpackRegs.no_hazard_interleaved (h : p.AcceptsInterleaved) (hd : p.shape.Disjoint ∨ p.shape.InPlace)
    {r c r' c' a : Nat} (hr : r < p.height.toNat) (hc : c < p.width.toNat) (hr' : r' < p.height.toNat)
    (hc' : c' < p.width.toNat) (hb : Before r c r' c') (h1 : p.dstAddr r c ≤ a) (h2 : a < p.dstAddr r c + 2) :
    ¬(p.pairAddr r' c' ≤ a ∧ a < p.pairAddr r' c' + 2) := by
  have hi := h.srcFits
  have ho := UnpackRegs.dstFits h.2
  simp only [UnpackRegs.dstAddr, UnpackRegs.pairAddr, elementAddr] at *
  rcases hd with hd | ⟨hd, hs⟩
  · have d1 := row_offset_lt (stride := p.outStride.toNat) hr (show 2 * c + 1 < p.outStride.toNat by omega)
    have d2 := row_offset_lt (stride := p.inStride.toNat) hr' (show 2 * c' + 1 < p.inStride.toNat by omega)
    simp only [FrameShape.Disjoint, UnpackRegs.shape] at hd
    omega
  · simp only [UnpackRegs.shape] at hd hs
    rw [hd, hs] at h1 h2
    rcases hb with hb | ⟨rfl, hb⟩
    · have := Nat.mul_le_mul_right p.inStride.toNat (show r + 1 ≤ r' by omega)
      rw [Nat.succ_mul] at this
      omega
    · omega

/-- With disjoint buffers, and in place, no group is read after an earlier group overwrote a byte of it (R69). -/
theorem UnpackRegs.no_hazard_tenBit (h : p.AcceptsTenBit) (hd : p.shape.Disjoint ∨ p.shape.InPlace)
    {r g r' g' a : Nat} (hr : r < p.height.toNat) (hg : g < p.width.toNat / 3) (hr' : r' < p.height.toNat)
    (hg' : g' < p.width.toNat / 3) (hb : Before r g r' g') (h1 : p.dstAddr r (3 * g) ≤ a)
    (h2 : a < p.dstAddr r (3 * g) + 6) : ¬(p.groupAddr r' g' ≤ a ∧ a < p.groupAddr r' g' + 8) := by
  have hi := h.srcFits
  have ho := UnpackRegs.dstFits h.2.2
  simp only [UnpackRegs.dstAddr, UnpackRegs.groupAddr, elementAddr] at *
  rcases hd with hd | ⟨hd, hs⟩
  · have d1 := row_offset_lt (stride := p.outStride.toNat) hr (show 6 * g + 5 < p.outStride.toNat by omega)
    have d2 := row_offset_lt (stride := p.inStride.toNat) hr' (show 8 * g' + 7 < p.inStride.toNat by omega)
    simp only [FrameShape.Disjoint, UnpackRegs.shape] at hd
    omega
  · simp only [UnpackRegs.shape] at hd hs
    rw [hd, hs] at h1 h2
    rcases hb with hb | ⟨rfl, hb⟩
    · have := Nat.mul_le_mul_right p.inStride.toNat (show r + 1 ≤ r' by omega)
      rw [Nat.succ_mul] at this
      omega
    · omega

end

end Sys2Proof.Machine
end

