-- ==== Sys2Proof/Laws/Commands.lean ====
section
/-! SUPPORT. What each shared way of ending a command does, and what each command can do: one lemma per meaning, which
later proofs cite instead of unfolding it. -/

namespace Sys2Proof.Machine

/-- An error's response is never OK: its status is 1 or 2 (R231). -/
theorem CommandError.status_ne_zero (e : CommandError) : e.response.extractLsb' 56 8 ≠ 0 := by
  rcases e with c | c <;> cases c <;> decide

theorem okResponse_eq (d : BitVec 32) : okResponse d = 0#32 ++ d := by
  apply BitVec.eq_of_toNat_eq
  simp [okResponse, responseWord]

theorem finishFrame_some (t : Transfer) (s : State) :
    finishFrame (some t) s = .next (State.respond { s with mem := t.mem } 0) := rfl

/-- `WRREG` of a named register and a legal value. -/
theorem execWrreg_ok (r : Reg) (v : Word32) (s : State) (h : v.toNat ≤ r.maxLegal) :
    execWrreg r.number v s = .next ((s.configure r v).respond 0) := by
  rw [execWrreg, Reg.ofNumber_number]
  simp only
  rw [if_neg (by omega)]
  rfl

/-- `LEVEL` either raises the first failing test's error, or runs its frame to completion. -/
theorem execLevel_cases (s : State) :
    (∃ e, levelCheck s.lv = some e ∧ execLevel s = .next (s.respond e.response)) ∨
    (s.lv.Accepts ∧ ∃ f, levelFrame s.lv s.lut s.mem = some f ∧ s.mem.replay f.stores = some f.mem ∧
      execLevel s = .next (State.respond { s with mem := f.mem } 0)) := by
  cases hc : levelCheck s.lv with
  | some e => exact .inl ⟨e, rfl, by rw [execLevel, hc]; rfl⟩
  | none =>
    have hv := (levelCheck_none _).1 hc
    obtain ⟨f, hf, hr⟩ := (levelPixel_spec (lut := s.lut) hv).completes (m := s.mem)
    exact .inr ⟨hv, f, hf, hr, by rw [execLevel, hc]; simp only [levelFrame, hf]; rfl⟩

/-- The loop of `UNPACK` runs to completion on every accepted frame. -/
theorem unpackFrame_completes {p : UnpackRegs} (h : p.AcceptsTenBit ∨ p.AcceptsInterleaved) (m : Memory) :
    ∃ f, unpackFrame p m = some f ∧ m.replay f.stores = some f.mem := by
  rcases h with h | h
  · obtain ⟨f, hf, hr⟩ := (tenBitGroup_spec h).completes (m := m)
    exact ⟨f, by rw [unpackFrame, if_pos h.tenBit]; exact hf, hr⟩
  · obtain ⟨f, hf, hr⟩ := (interleavedPixel_spec h).completes (m := m)
    exact ⟨f, by rw [unpackFrame, if_neg (by simp [h.notTenBit])]; exact hf, hr⟩

/-- `UNPACK` either raises the first failing test's error, or runs its frame to completion. -/
theorem execUnpack_cases (s : State) :
    (∃ e, unpackCheck s.up = some e ∧ execUnpack s = .next (s.respond e.response)) ∨
    ((s.up.AcceptsTenBit ∨ s.up.AcceptsInterleaved) ∧ ∃ f, unpackFrame s.up s.mem = some f ∧
      s.mem.replay f.stores = some f.mem ∧ execUnpack s = .next (State.respond { s with mem := f.mem } 0)) := by
  cases hc : unpackCheck s.up with
  | some e => exact .inl ⟨e, rfl, by rw [execUnpack, hc]; rfl⟩
  | none =>
    have hv := (unpackCheck_none _).1 hc
    obtain ⟨f, hf, hr⟩ := unpackFrame_completes hv s.mem
    exact .inr ⟨hv, f, hf, hr, by rw [execUnpack, hc]; simp only [hf]; rfl⟩

/-- `WRREG` either raises one of its two errors, or writes a named register with a legal value. -/
theorem execWrreg_cases (n : BitVec 8) (v : Word32) (s : State) :
    (∃ e, execWrreg n v s = .next (s.respond (CommandError.response e))) ∨
    (∃ r, Reg.ofNumber n = some r ∧ v.toNat ≤ r.maxLegal ∧ execWrreg n v s = .next ((s.configure r v).respond 0)) := by
  rw [execWrreg]
  split
  · exact .inl ⟨_, rfl⟩
  · rename_i r hr
    split
    · exact .inl ⟨_, rfl⟩
    · exact .inr ⟨r, hr, by omega, rfl⟩

/-- `RDREG` answers with an error or with the register. -/
theorem execRdreg_cases (n : BitVec 8) (s : State) :
    (∃ e, Reg.ofNumber n = none ∧ execRdreg n s = .next (s.respond (CommandError.response e))) ∨
    (∃ r, Reg.ofNumber n = some r ∧ execRdreg n s = .next (s.respond (okResponse (s.readReg r)))) := by
  rw [execRdreg]
  split
  · exact .inl ⟨_, ‹_›, rfl⟩
  · exact .inr ⟨_, ‹_›, rfl⟩

/-- The writes of a command exist, and replayed they give the memory of the completed command (R67, R260). -/
theorem commandStores_spec (w : CommandWord) (s : State) :
    ∃ stores u, commandStores w s = some stores ∧ runCommand w s = .next u ∧ s.mem.replay stores = some u.mem := by
  rw [commandStores, runCommand]
  cases decode w with
  | rejected why => exact ⟨[], _, rfl, rfl, rfl⟩
  | instr i =>
    cases i with
    | wrreg n v =>
      rcases execWrreg_cases n v s with ⟨e, h⟩ | ⟨r, -, -, h⟩ <;> refine ⟨[], _, rfl, h, ?_⟩
      · rfl
      · simp [Memory.replay]
    | rdreg n => rcases execRdreg_cases n s with ⟨e, -, h⟩ | ⟨r, -, h⟩ <;> exact ⟨[], _, rfl, h, rfl⟩
    | rdlut i => exact ⟨[], _, rfl, rfl, rfl⟩
    | lutbld => exact ⟨[], _, rfl, rfl, rfl⟩
    | level =>
      rcases execLevel_cases s with ⟨e, hc, h⟩ | ⟨hc, f, hf, hr, h⟩
      · exact ⟨[], _, by simp [hc], h, rfl⟩
      · exact ⟨f.stores, _, by simp [(levelCheck_none _).2 hc, hf], h, hr⟩
    | unpack =>
      rcases execUnpack_cases s with ⟨e, hc, h⟩ | ⟨hc, f, hf, hr, h⟩
      · exact ⟨[], _, by simp [hc], h, rfl⟩
      · exact ⟨f.stores, _, by simp [(unpackCheck_none _).2 hc, hf], h, hr⟩

end Sys2Proof.Machine
end

