-- ==== Sys2Proof/Laws/Decode.lean ====
section
/-! SUPPORT. The fields of an assembled command word (spec/30_encoding.md rule R90). -/

namespace Sys2Proof

section
variable (op reg : BitVec 8) (imm : BitVec 32)

@[simp] theorem commandWord_op : (commandWord op reg imm).op = op := by
  simp only [commandWord, CommandWord.op]
  ext i hi
  simp only [BitVec.getElem_extractLsb', BitVec.getLsbD_append]
  simp [show ¬(56 + i < 32) by omega, show ¬(56 + i - 32 < 16) by omega, show ¬(56 + i - 32 - 16 < 8) by omega,
    show 56 + i - 32 - 16 - 8 = i by omega, BitVec.getLsbD_eq_getElem hi]

@[simp] theorem commandWord_reg : (commandWord op reg imm).reg = reg := by
  simp only [commandWord, CommandWord.reg]
  ext i hi
  simp only [BitVec.getElem_extractLsb', BitVec.getLsbD_append]
  simp [show ¬(48 + i < 32) by omega, show ¬(48 + i - 32 < 16) by omega, show 48 + i - 32 - 16 = i by omega,
    BitVec.getLsbD_eq_getElem hi]
  omega

@[simp] theorem commandWord_z : (commandWord op reg imm).z = 0 := by
  simp only [commandWord, CommandWord.z]
  ext i hi
  simp only [BitVec.getElem_extractLsb', BitVec.getLsbD_append]
  simp [show ¬(32 + i < 32) by omega]
  omega

@[simp] theorem commandWord_imm : (commandWord op reg imm).imm = imm := by
  simp only [commandWord, CommandWord.imm]
  ext i hi
  simp only [BitVec.getElem_extractLsb', BitVec.getLsbD_append]
  simp [hi]

end

/-- A word is its four fields (R90). -/
theorem commandWord_of_fields (w : CommandWord) (hz : w.z = 0) : commandWord w.op w.reg w.imm = w := by
  ext i hi
  have hzi : ∀ j, j < 16 → w.getLsbD (32 + j) = false := fun j hj => by
    have := congrArg (fun v : BitVec 16 => v.getLsbD j) hz
    simpa [CommandWord.z, BitVec.getLsbD_extractLsb', hj] using this
  simp only [commandWord, BitVec.getElem_eq_testBit_toNat, BitVec.testBit_toNat, BitVec.getLsbD_append,
    CommandWord.op, CommandWord.reg, CommandWord.imm, BitVec.getLsbD_extractLsb']
  by_cases h1 : i < 32
  · simp [h1]
  · by_cases h2 : i - 32 < 16
    · have := hzi (i - 32) h2
      rw [show 32 + (i - 32) = i by omega] at this
      simp [h1, h2, this]
    · by_cases h3 : i - 32 - 16 < 8
      · simp [h1, h2, h3, show 48 + (i - 32 - 16) = i by omega]
      · simp [h1, h2, h3, show 56 + (i - 32 - 16 - 8) = i by omega, show i - 32 - 16 - 8 < 8 by omega]

end Sys2Proof
end

