-- ==== Sys2Proof/Laws/PerInstr.lean ====
section
/-! SUPPORT. Laws that hold of every command as syntax, one lemma per constructor. `TableRow`: the word that the
encoder writes for a command matches that command's row of spec/opcode_table.json and no other row. -/

namespace Sys2Proof.Laws

/-- The mask and the match of a command's row of spec/opcode_table.json. -/
def opcodeRow : Instr → BitVec 64 × BitVec 64
  | .wrreg _ _ => (0xFF00FFFF00000000, 0x0100000000000000)
  | .rdreg _ => (0xFF00FFFFFFFFFFFF, 0x0200000000000000)
  | .rdlut _ => (0xFFFFFFFFFFFFFF00, 0x0300000000000000)
  | .lutbld => (0xFFFFFFFFFFFFFFFF, 0x0400000000000000)
  | .level => (0xFFFFFFFFFFFFFFFF, 0x1000000000000000)
  | .unpack => (0xFFFFFFFFFFFFFFFF, 0x1100000000000000)

/-- The encoded command matches its row (R97), and its opcode field is the row's (R92), which no other row has. -/
def TableRow.Statement (i : Instr) : Prop :=
  encode i &&& (opcodeRow i).1 = (opcodeRow i).2 ∧ (encode i).op = (opcodeRow i).2.extractLsb' 56 8

/-- A word of four fields, masked field by field. -/
theorem commandWord_and (op reg op' reg' : BitVec 8) (z : BitVec 16) (imm imm' : BitVec 32) :
    commandWord op reg imm &&& (op' ++ reg' ++ z ++ imm') =
      (op &&& op') ++ (reg &&& reg') ++ (0#16 &&& z) ++ (imm &&& imm') := by
  rw [commandWord, BitVec.and_append, BitVec.and_append, BitVec.and_append]

theorem TableRow.wrreg (reg : BitVec 8) (imm : Word32) : TableRow.Statement (.wrreg reg imm) := by
  refine ⟨(commandWord_and 0x01 reg 0xFF 0x00 0xFFFF imm 0).trans ?_,
    (commandWord_op (op := 0x01) (reg := reg) (imm := imm)).trans (by rw [opcodeRow]; decide)⟩
  rw [show reg &&& 0x00 = 0#8 from BitVec.and_zero, show imm &&& 0 = 0#32 from BitVec.and_zero, opcodeRow]
  decide

theorem TableRow.rdreg (reg : BitVec 8) : TableRow.Statement (.rdreg reg) := by
  refine ⟨(commandWord_and 0x02 reg 0xFF 0x00 0xFFFF 0 0xFFFFFFFF).trans ?_,
    (commandWord_op (op := 0x02) (reg := reg) (imm := 0)).trans (by rw [opcodeRow]; decide)⟩
  rw [show reg &&& 0x00 = 0#8 from BitVec.and_zero, opcodeRow]
  decide

theorem TableRow.rdlut (index : Byte) : TableRow.Statement (.rdlut index) := by
  refine ⟨(commandWord_and 0x03 0 0xFF 0xFF 0xFFFF (0#24 ++ index) (0xFFFFFF#24 ++ 0x00#8)).trans ?_,
    (commandWord_op (op := 0x03) (reg := 0) (imm := 0#24 ++ index)).trans (by rw [opcodeRow]; decide)⟩
  rw [BitVec.and_append, show index &&& 0x00#8 = 0#8 from BitVec.and_zero, opcodeRow]
  decide

theorem TableRow.lutbld : TableRow.Statement .lutbld := by unfold TableRow.Statement; decide

theorem TableRow.level : TableRow.Statement .level := by unfold TableRow.Statement; decide

theorem TableRow.unpack : TableRow.Statement .unpack := by unfold TableRow.Statement; decide

end Sys2Proof.Laws
end

