-- ==== Sys2Proof/Laws/Table.lean ====
section
/-! SUPPORT. The laws of the level table (spec/41_level_lut.md): its entries, and the range of the ramp. -/

namespace Sys2Proof.Machine

theorem byte255_eq (k : Nat) : byte255 k = k * 255 / 65536 := by
  rw [byte255, Nat.shiftRight_eq_div_pow]
  norm_num

theorem byte255_mono {k k' : Nat} (h : k ≤ k') : byte255 k ≤ byte255 k' := by
  rw [byte255_eq, byte255_eq]
  omega

theorem byte255_le {k : Nat} (h : k ≤ 65536) : byte255 k ≤ 255 := by
  rw [byte255_eq]
  omega

/-- The ramp clause is taken only with a positive divisor (R142). -/
theorem lt_of_byte255_lt {a b : Nat} (h : byte255 a < byte255 b) : a < b := by
  by_contra hn
  have := byte255_mono (Nat.le_of_not_lt hn)
  omega

/-- Entry `i` of the table that `BuildLUT` returns (R143). -/
theorem buildLut_read (a b p q : Nat) (i : Byte) : (buildLut a b p q).read i = lutEntry a b p q i.toNat := by
  simp [Table.read, buildLut]

/-- Truncation toward zero of a product with a non-negative slope (R145). -/
theorem ramp_up (n p q d : Nat) (h : p ≤ q) :
    Int.tdiv ((n : Int) * ((q : Int) - (p : Int))) (d : Int) = ((n * (q - p) / d : Nat) : Int) := by
  rw [← Int.ofNat_sub h, ← Int.natCast_mul, ← Int.ofNat_tdiv]

/-- Truncation toward zero of a product with a negative slope (R145). -/
theorem ramp_down (n p q d : Nat) (h : q ≤ p) :
    Int.tdiv ((n : Int) * ((q : Int) - (p : Int))) (d : Int) = -((n * (p - q) / d : Nat) : Int) := by
  rw [show (n : Int) * ((q : Int) - (p : Int)) = -((n * (p - q) : Nat) : Int) by
    push_cast [Nat.cast_sub h]; ring, Int.neg_tdiv, ← Int.ofNat_tdiv]

/-- The ramp's rise over `n` entries is below that of the output levels (R146): `n` entries above `loIn` and below
`hiIn` make less than `255 * (b - a) / 65536`. -/
theorem ramp_bound {a b n w : Nat} (hab : a < b) (hn : byte255 a + n < byte255 b) :
    n * w / (b - a) * 65536 ≤ 255 * w := by
  rw [byte255_eq, byte255_eq] at hn
  have h1 : n * 65536 ≤ 255 * (b - a) := by omega
  have h2 : n * w / (b - a) * (b - a) ≤ n * w := Nat.div_mul_le_self _ _
  have h3 : n * w / (b - a) * 65536 * (b - a) ≤ 255 * w * (b - a) := by
    calc n * w / (b - a) * 65536 * (b - a) = n * w / (b - a) * (b - a) * 65536 := by ring
      _ ≤ n * w * 65536 := Nat.mul_le_mul_right _ h2
      _ = n * 65536 * w := by ring
      _ ≤ 255 * (b - a) * w := Nat.mul_le_mul_right _ h1
      _ = 255 * w * (b - a) := by ring
  exact Nat.le_of_mul_le_mul_right h3 (by omega)

/-- The entry in the ramp clause, as a natural number added to or taken from the low output level (R145). -/
theorem lutEntryExact_ramp {a b p q i : Nat} (h1 : byte255 a ≤ i) (h2 : i < byte255 b) :
    lutEntryExact a b p q i =
      if p ≤ q then (byte255 p : Int) + ((i - byte255 a) * (q - p) / (b - a) : Nat)
      else (byte255 p : Int) - ((i - byte255 a) * (p - q) / (b - a) : Nat) := by
  have hab := lt_of_byte255_lt (Nat.lt_of_le_of_lt h1 h2)
  rw [lutEntryExact, if_neg (by omega), if_pos h2, ← Int.ofNat_sub h1, ← Int.ofNat_sub (Nat.le_of_lt hab)]
  split
  · rw [ramp_up _ _ _ _ ‹_›]
  · rw [ramp_down _ _ _ _ (by omega)]
    rfl

theorem lutEntryExact_low {a b p q i : Nat} (h : i < byte255 a) : lutEntryExact a b p q i = byte255 p := by
  rw [lutEntryExact, if_pos h]

theorem lutEntryExact_high {a b p q i : Nat} (h1 : byte255 a ≤ i) (h2 : byte255 b ≤ i) :
    lutEntryExact a b p q i = byte255 q := by
  rw [lutEntryExact, if_neg (by omega), if_neg (by omega)]

@[simp] theorem Table.reset_read (i : Byte) : Table.reset.read i = 0 := by
  simp only [Table.read, Table.reset, List.getElem_replicate]

end Sys2Proof.Machine
end

