-- ==== Sys2Proof/Tests/Slice0.lean ====
section
/-! SUPPORT. Our own checks. Expected values are those of spec/95_test_vectors.md, whose name stands in each comment, or
the bits of an encoding written out from spec/30_encoding.md rule R93. The theorems named `witness_` show concrete
states and operands that meet the hypotheses of the statements they name, clause by clause. -/

open Sys2Proof Sys2Proof.Machine Sys2Proof.Spec

namespace Sys2Proof.Tests

set_option maxRecDepth 4000

/-! ### Small states -/

/-- What a step answers, seen through one reading of its next state. -/
def after {α : Type} (r : Result) (f : State → α) : Option α :=
  match r with
  | .next t => some (f t)
  | .fault _ => none
  | .refused _ => none

/-- The reset state with one word issued by the host. -/
def issue (s : State) (w : CommandWord) : State := { s with host := [.command w] }

/-- A memory with bytes from an address on. -/
def bytesAt (m : Memory) (a : Nat) : List Byte → Memory
  | [] => m
  | b :: rest => bytesAt (m.write a b) (a + 1) rest

/-- The bytes of a memory from an address on. -/
def dump (m : Memory) (a n : Nat) : List Byte := (List.range n).map fun k => m.read (a + k)

/-- The registers of a `LEVEL` frame with the identity parameters. -/
def levelRegs (format : BitVec 2) (w h is os sb ss db ds : BitVec 32) : LevelRegs where
  lowIn := 0
  highIn := 65536
  lowOut := 0
  highOut := 65536
  width := w
  height := h
  inStride := is
  outStride := os
  format := format
  srcBase := sb
  srcSize := ss
  dstBase := db
  dstSize := ds

/-- The registers of an `UNPACK` frame. -/
def unpackRegs (layout : BitVec 32) (offset : BitVec 16) (shift : BitVec 4) (swap : BitVec 1) (lm cm : BitVec 16)
    (w h is os sb ss db ds : BitVec 32) : UnpackRegs where
  offset := offset
  shift := shift
  swap := swap
  lumaMask := lm
  chromaMask := cm
  width := w
  height := h
  inStride := is
  outStride := os
  layout := layout
  srcBase := sb
  srcSize := ss
  dstBase := db
  dstSize := ds

/-- A state with these level registers, the table they call for, and this memory. -/
def levelState (p : LevelRegs) (m : Memory) : State := { State.reset with lv := p, lut := p.table, mem := m }

/-- A state with these unpack registers and this memory. -/
def unpackState (p : UnpackRegs) (m : Memory) : State := { State.reset with up := p, mem := m }

/-- The frame of program P1, by format. -/
def p1 (format : BitVec 2) : LevelRegs := levelRegs format 3 2 8 4 0x1000 16 0x2000 8

/-- The memory of program P1. -/
def p1Mem : Memory :=
  bytesAt (bytesAt [] 0x1000 [0x00, 0x00, 0x34, 0x12, 0xFF, 0xFF, 0xAA, 0xAA, 0xFF, 0x00, 0x00, 0x01, 0x00, 0x80, 0xAA,
    0xAA]) 0x2000 [0xEE, 0xEE, 0xEE, 0xEE, 0xEE, 0xEE, 0xEE, 0xEE]

/-- The frame of program P2, by swap, offset and destination. -/
def p2 (swap : BitVec 1) (offset : BitVec 16) (dst : BitVec 32) : UnpackRegs :=
  unpackRegs 2 offset 8 swap 0xFF 0xFF 2 1 4 4 0x3000 4 dst 4

/-- The memory of program P2. -/
def p2Mem : Memory := bytesAt (bytesAt [] 0x3000 [0x10, 0x20, 0x7F, 0x80]) 0x3100 [0xEE, 0xEE, 0xEE, 0xEE]

/-- The frame of vector V-TBP-2. -/
def tbp2 : UnpackRegs := unpackRegs 1 0 4 0 0xF 0xF 3 1 8 8 0x4000 8 0x4100 8

/-- The memory of vector V-TBP-2. -/
def tbp2Mem : Memory :=
  bytesAt (bytesAt [] 0x4000 [0x01, 0x08, 0x30, 0xC0, 0x04, 0x14, 0x60, 0x00]) 0x4100
    [0xEE, 0xEE, 0xEE, 0xEE, 0xEE, 0xEE, 0xEE, 0xEE]

/-- The configuration of the validation vectors, by the registers they change. -/
def val (layout w h is os sb ss ds : BitVec 32) : UnpackRegs :=
  unpackRegs layout 0 0 0 0 0 w h is os sb ss 0x5100 ds

/-! ### Well-formedness: one ill-formed command for each check (R99) -/

theorem test_wf_wrreg_unknown_register : (Instr.wrreg 0x0D 0).wellFormed = false := by decide
theorem test_wf_wrreg_out_of_range : (Instr.wrreg 0x00 65537).wellFormed = false := by decide
theorem test_wf_rdreg_unknown_register : (Instr.rdreg 0x1E).wellFormed = false := by decide
theorem test_wf_legal_commands : (Instr.wrreg 0x00 65536).wellFormed ∧ (Instr.rdreg 0x1D).wellFormed ∧
    (Instr.rdlut 255).wellFormed ∧ Instr.lutbld.wellFormed ∧ Instr.level.wellFormed ∧ Instr.unpack.wellFormed := by
  decide

/-! ### Decoding: words written out bit by bit from the encodings of R93 -/

theorem test_decode_wrreg :
    decode 0b0000000100011101000000000000000010000000000000000000000000000001 = .instr (.wrreg 0x1D 0x80000001) := by
  decide
theorem test_decode_rdreg :
    decode 0b0000001000010001000000000000000000000000000000000000000000000000 = .instr (.rdreg 0x11) := by decide
theorem test_decode_rdlut :
    decode 0b0000001100000000000000000000000000000000000000000000000011001000 = .instr (.rdlut 200) := by decide
theorem test_decode_lutbld :
    decode 0b0000010000000000000000000000000000000000000000000000000000000000 = .instr .lutbld := by decide
theorem test_decode_level :
    decode 0b0001000000000000000000000000000000000000000000000000000000000000 = .instr .level := by decide
theorem test_decode_unpack :
    decode 0b0001000100000000000000000000000000000000000000000000000000000000 = .instr .unpack := by decide

/-- V-CFG-11 to V-CFG-15, and every must-be-zero field of the other shapes. -/
theorem test_decode_rejects :
    decode 0x0100000100000000 = .rejected .mustBeZero ∧ decode 0x0000000000000000 = .rejected .unassignedOpcode ∧
    decode 0x0500000000000000 = .rejected .unassignedOpcode ∧ decode 0x0300000000000100 = .rejected .mustBeZero ∧
    decode 0x1000000000000001 = .rejected .mustBeZero ∧ decode 0x0201000000000001 = .rejected .mustBeZero ∧
    decode 0x0201800000000000 = .rejected .mustBeZero ∧ decode 0x0301000000000000 = .rejected .mustBeZero ∧
    decode 0x0401000000000000 = .rejected .mustBeZero ∧ decode 0x1100000100000000 = .rejected .mustBeZero ∧
    decode 0x1200000000000000 = .rejected .unassignedOpcode := by decide

theorem test_encode_words :
    encode (.wrreg 0x10 0xFFF0) = 0x011000000000FFF0 ∧ encode (.rdreg 0x10) = 0x0210000000000000 ∧
    encode (.rdlut 200) = 0x03000000000000C8 ∧ encode .lutbld = 0x0400000000000000 ∧
    encode .level = 0x1000000000000000 ∧ encode .unpack = 0x1100000000000000 := by decide

theorem test_decodeTableWord : decodeTableWord 64 0x0101000000010000 = some (.wrreg 0x01 65536) ∧
    decodeTableWord 64 0x1000000000000001 = none := by decide

theorem test_withFetchWord :
    after (step (State.reset.withFetchWord 64 0x0101000000010000)) (fun t => (t.readReg .lvHighIn, t.host)) =
      some (65536, []) := by decide

/-! ### The assembler (R100, R101) -/

/-- Lines of programs P1 and P2, and every way of writing a value. -/
theorem test_assemble_lines :
    assemble ["WRREG LV_HIGHIN, 65536".toList, "WRREG LV_SRCBASE, 0x1000  # base".toList, "".toList,
        "WRREG UP_OFFSET, -16".toList, "WRREG LV_FORMAT, BE|SIGNED".toList, "WRREG UP_LAYOUT, INTERLEAVED".toList,
        "RDLUT 200".toList, "LUTBLD".toList, "LEVEL".toList, "UNPACK".toList] =
      some [0x0101000000010000, 0x0109000000001000, 0x011000000000FFF0, 0x0108000000000003, 0x0119000000000002,
        0x03000000000000C8, 0x0400000000000000, 0x1000000000000000, 0x1100000000000000] := by decide +kernel

theorem test_assemble_pseudo : assemble ["SETLEVELS 0, 65536, 0, 65536".toList, "UPBUF 0x3000, 4, 0x3100, 4".toList] =
    some [0x0100000000000000, 0x0101000000010000, 0x0102000000000000, 0x0103000000010000, 0x011A000000003000,
      0x011B000000000004, 0x011C000000003100, 0x011D000000000004] := by decide +kernel

theorem test_assemble_refuses : assembleLine "WRREG UP_OFFSET, -32769".toList = none ∧
    assembleLine "WRREG LV_WIDTH, -1".toList = none ∧ assembleLine "RDLUT 256".toList = none ∧
    assembleLine "FOO".toList = none := by decide +kernel

/-! ### One step of each command -/

/-- V-CFG-1. -/
theorem test_wrreg_step :
    after (step (issue State.reset 0x0101000000010000)) (fun t => (t.readReg .lvHighIn, t.responses)) =
    some (65536, [0]) := by decide
/-- The third command of P5: with `LV_HIGHOUT` alone at 65536 every entry is 255. -/
theorem test_wrreg_rebuilds :
    after (step (issue State.reset 0x0103000000010000)) (fun t => (t.lut.read 0, t.lut.read 255)) =
    some (255, 255) := by decide +kernel

/-- V-CFG-5: the register reads back as its 16-bit pattern, zero-extended. -/
theorem test_rdreg_step : after (step (issue (unpackState (p2 0 0xFFF0 0) []) 0x0210000000000000)) State.responses =
    some [0x000000000000FFF0] := by decide
/-- V-CFG-10. -/
theorem test_rdreg_unknown : after (step (issue State.reset 0x021E000000000000)) State.responses =
    some [0x0100000000000002] := by decide

/-- V-CFG-18. -/
theorem test_rdlut_step : after (step (issue (levelState (p1 0) []) 0x03000000000000C8)) State.responses = some [0xC8] := by
  decide +kernel
/-- V-CFG-14. -/
theorem test_rdlut_illegal : after (step (issue State.reset 0x0300000000000100)) State.responses =
    some [0x0100000000000001] := by decide

/-- V-LUT-5 (truncation, not floor) after `LUTBLD` on a table that does not follow the registers. -/
theorem test_lutbld_negative_slope :
    after (exec .lutbld { State.reset with lv := { p1 0 with lowOut := 32768, highOut := 0 } })
      (fun t => [t.lut.read 0, t.lut.read 1, t.lut.read 2, t.lut.read 4, t.lut.read 253, t.lut.read 254]) =
    some [127, 127, 126, 125, 1, 0] := by decide +kernel
/-- V-LUT-13, an entry that is exact only without an intermediate rounding of the slope. -/
theorem test_lutbld_exact_ramp :
    after (exec .lutbld { State.reset with lv := { p1 0 with highIn := 22275, highOut := 50787 } })
      (fun t => [t.lut.read 24, t.lut.read 25, t.lut.read 26, t.lut.read 85, t.lut.read 86]) =
    some [54, 57, 59, 193, 197] := by decide +kernel

/-- P1, signed little-endian. -/
theorem test_level_signed :
    after (step (issue (levelState (p1 2) p1Mem) 0x1000000000000000)) (fun t => (dump t.mem 0x2000 8, t.responses)) =
    some ([0x7F, 0x92, 0x7F, 0xEE, 0x80, 0x80, 0x00, 0xEE], [0]) := by decide +kernel
/-- P1, unsigned big-endian. -/
theorem test_level_big_endian :
    after (step (issue (levelState (p1 1) p1Mem) 0x1000000000000000)) (fun t => dump t.mem 0x2000 8) =
    some [0x00, 0x34, 0xFF, 0xEE, 0xFF, 0x00, 0x00, 0xEE] := by decide +kernel

/-- V-TBP-2 as a frame. -/
theorem test_unpack_tenbit :
    after (step (issue (unpackState tbp2 tbp2Mem) 0x1100000000000000)) (fun t => (dump t.mem 0x4100 8, t.responses)) =
    some ([0x21, 0x00, 0x43, 0x00, 0x65, 0x00, 0xEE, 0xEE], [0]) := by decide +kernel
/-- P2, in place with swap. -/
theorem test_unpack_in_place :
    after (step (issue (unpackState (p2 1 0 0x3000) p2Mem) 0x1100000000000000)) (fun t => dump t.mem 0x3000 4) =
    some [0x20, 0x10, 0x80, 0x7F] := by decide +kernel

/-! ### Shared operations -/

/-- V-CMB-3, 4, 5, 6, 7, 9, 11 and 12. -/
theorem test_combine :
    combine (unpackRegs 0 0xFFFF 0 0 0xFFFF 0xFFFF 0 0 0 0 0 0 0 0) 0 5 = 0xFFFF ∧
    combine (unpackRegs 0 0 8 0 0x3FF 0 0 0 0 0 0 0 0 0) 0 0x3FF = 0xFF00 ∧
    combine (unpackRegs 0 0 15 0 0xFFFF 0 0 0 0 0 0 0 0 0) 0 3 = 0x8000 ∧
    combine (unpackRegs 0 0 6 0 0x3FF 0x3F 0 0 0 0 0 0 0 0) 0x3FF 0x3FF = 0xFFFF ∧
    combine (unpackRegs 0 0xFF80 8 0 0xFF 0xFF 0 0 0 0 0 0 0 0) 0x80 0x7F = 0xFF00 ∧
    combine (unpackRegs 0 1 8 0 0x1FF 0x1FF 0 0 0 0 0 0 0 0) 0xFF 0xFF = 0x0100 ∧
    combine (unpackRegs 0 0x8000 0 0 0xFFFF 0xFFFF 0 0 0 0 0 0 0 0) 0 0 = 0x8000 ∧
    combine (unpackRegs 0 0x7FFF 0 0 0 0xFFFF 0 0 0 0 0 0 0 0) 0x3FF 0 = 0x83FE := by decide

/-- V-LUT-6, V-LUT-7, V-LUT-8 and V-LUT-10, the entries at the ends of each clause. -/
theorem test_table_clauses :
    [190, 191].map (lutEntry 49152 16384 0 65536) = [0, 255] ∧
    [126, 127].map (lutEntry 32768 32768 0 65536) = [0, 255] ∧
    [126, 127, 128].map (lutEntry 32768 32900 0 65536) = [0, 0, 255] ∧
    [3, 4, 5, 253, 254, 255].map (lutEntry 0 65536 19661 0) = [76, 75, 75, 1, 0, 0] := by decide

/-- The level bytes listed with the table vectors. -/
theorem test_byte255 : [1, 257, 258, 16384, 19661, 32768, 39321, 39322, 49152, 65535, 65536].map byte255 =
    [0, 0, 1, 63, 76, 127, 152, 153, 191, 254, 255] := by decide

/-- Reset after the first of the two writes of a frame: that write stays, the registers are 0, no response (R260). -/
theorem test_reset_during_unpack :
    after (step { unpackState (p2 0 0 0x3100) p2Mem with host := [.resetDuring 0x1100000000000000 1] })
      (fun t => (dump t.mem 0x3100 4, t.responses, t.readReg .upWidth)) =
    some ([0x10, 0x20, 0xEE, 0xEE], [], 0) := by decide +kernel

/-- Memory keeps its canonical form at the last address, and writing the unlisted value removes the entry. -/
theorem test_memory_top : (Memory.write [] 0xFFFFFFFF 7).wf = true ∧ Memory.memRead [] 0xFFFFFFFF 1 = some 0 ∧
    Memory.memRead [] 0xFFFFFFFF 2 = none ∧ ((Memory.write [] 0xFFFFFFFF 7).write 0xFFFFFFFF 0) = [] := by decide +kernel

/-! ### Witnesses: encoding and the step -/

theorem witness_EncodeOfDecodeIsTheWord : decode 0x0110000000008000 = .instr (.wrreg 0x10 0x8000) := by decide

/-- One illegal word for each way of being illegal, and a state in which one is issued. -/
theorem witness_IllegalWord : (issue State.reset 0x0500000000000000).host = .command 0x0500000000000000 :: [] ∧
    IllegalWord 0x0500000000000000 ∧ IllegalWord 0x0100000100000000 ∧ IllegalWord 0x0200000000000001 ∧
    IllegalWord 0x0300000000000100 ∧ IllegalWord 0x0400000000000001 ∧ ¬ IllegalWord 0x03000000000000FF :=
  ⟨by decide, by decide, by decide, by decide, by decide, by decide, by unfold IllegalWord; decide⟩

theorem witness_StepRunsTheDecodedCommand : (issue State.reset 0x0400000000000000).host =
    .command 0x0400000000000000 :: [] ∧ decode 0x0400000000000000 = .instr .lutbld := by decide

theorem witness_HostActsBetweenCommands :
    ({ levelState (p1 0) p1Mem with host := [.writeByte 0xFFFFFFFF 1] } : State).host = .writeByte 0xFFFFFFFF 1 :: [] ∧
    ({ levelState (p1 0) p1Mem with host := [.writeByte 0xFFFFFFFF 1] } : State).mem.wf = true ∧
    (0 : Nat) ≠ (0xFFFFFFFF : BitVec 32).toNat ∧
    ({ levelState (p1 0) p1Mem with host := [.reset, .command 0] } : State).host = .reset :: [.command 0] ∧
    State.reset.host = [] := by decide

theorem witness_ResetZeroes : ({ levelState (p1 0) p1Mem with host := [.reset] } : State).host = .reset :: [] := by decide

theorem witness_ResetAbandons :
    ({ unpackState tbp2 tbp2Mem with host := [.resetDuring 0x1100000000000000 2] } : State).host =
      .resetDuring 0x1100000000000000 2 :: [] := by decide

/-- A state that is not the reset state, meets the invariant and steps. -/
theorem witness_EveryStepKeepsInvariant : (issue (levelState (p1 2) p1Mem) 0x0400000000000000).Inv ∧
    ∃ t, step (issue (levelState (p1 2) p1Mem) 0x0400000000000000) = .next t :=
  ⟨⟨by unfold LevelRegs.Legal; decide, rfl, by decide +kernel⟩, _, rfl⟩

theorem witness_EveryCommandGivesItsResponse : (issue (levelState (p1 2) p1Mem) 0x1000000000000000).host =
    .command 0x1000000000000000 :: [] := by decide

theorem witness_FailedCommandChangesNothing :
    (issue State.reset 0x1100000000000000).host = .command 0x1100000000000000 :: [] ∧
    after (step (issue State.reset 0x1100000000000000)) State.responses = some [0x0100000000000004] ∧
    (0x0100000000000004 : ResponseWord).extractLsb' 56 8 ≠ 0x00 := by decide

theorem witness_KernelsShareNoState : (∃ t, exec .level (levelState (p1 0) p1Mem) = .next t) ∧
    ∃ t, exec .unpack (unpackState tbp2 tbp2Mem) = .next t :=
  ⟨⟨_, rfl⟩, ⟨_, rfl⟩⟩

/-! ### Witnesses: configuration commands -/

theorem witness_UnknownRegister : ¬ NamesRegister 0x0D ∧ ¬ NamesRegister 0x0F ∧ ¬ NamesRegister 0x1E ∧
    ¬ NamesRegister 0xFF ∧ NamesRegister 0x00 ∧ NamesRegister 0x0C ∧ NamesRegister 0x10 ∧ NamesRegister 0x1D := by decide

theorem witness_OutOfRange : (NamesRegister 0x03 ∧ maxLegal 0x03 < (65537 : Word32).toNat) ∧
    (NamesRegister 0x08 ∧ maxLegal 0x08 < (4 : Word32).toNat) ∧
    (NamesRegister 0x10 ∧ maxLegal 0x10 < (0x10000 : Word32).toNat) ∧
    (NamesRegister 0x11 ∧ maxLegal 0x11 < (16 : Word32).toNat) ∧
    (NamesRegister 0x12 ∧ maxLegal 0x12 < (2 : Word32).toNat) := by decide

/-- The largest legal value of a level parameter, of a narrow register and of a full-width one, and the two ways of being
refused; also the premise of `RdregReturnsTheWrittenOperand`. -/
theorem witness_WrregWrites : (65536 : Word32).toNat ≤ maxLegal Reg.lvLowIn.number ∧
    (15 : Word32).toNat ≤ maxLegal Reg.upShift.number ∧
    (0xFFFFFFFF : Word32).toNat ≤ maxLegal Reg.upLayout.number ∧ Reg.upShift ≠ Reg.upLayout ∧
    (¬ NamesRegister 0x0E ∨ maxLegal 0x0E < (0 : Word32).toNat) ∧
    (¬ NamesRegister 0x00 ∨ maxLegal 0x00 < (65537 : Word32).toNat) := by decide

theorem witness_LutbldRebuilds : (levelState (p1 2) p1Mem).Inv :=
  ⟨by unfold LevelRegs.Legal; decide, rfl, by decide +kernel⟩

theorem witness_SetLevels : (0 : Word32).toNat ≤ 65536 ∧ (65536 : Word32).toNat ≤ 65536 ∧
    ({ State.reset with host := [.command 0x0100000000000000, .command 0x0101000000010000, .command 0x0102000000000000,
      .command 0x0103000000010000] } : State).host =
    .command (encode (.wrreg 0x00 0)) :: .command (encode (.wrreg 0x01 65536)) ::
      .command (encode (.wrreg 0x02 0)) :: .command (encode (.wrreg 0x03 65536)) :: [] := by decide

/-! ### Witnesses: the level table -/

theorem witness_LevelByte : (65536 : Nat) ≤ 65536 ∧ (65535 : Nat) ≤ 65536 := by decide

/-- An entry in each clause, in the ramp at both of its ends. -/
theorem witness_TableEntry : (16384 : Nat) ≤ 65536 ∧ (49152 : Nat) ≤ 65536 ∧ (65536 : Nat) ≤ 65536 ∧
    (62 : Byte).toNat < 16384 * 255 / 65536 ∧ 16384 * 255 / 65536 ≤ (63 : Byte).toNat ∧
    (190 : Byte).toNat < 49152 * 255 / 65536 ∧ ¬ (191 : Byte).toNat < 49152 * 255 / 65536 := by decide

/-- The two clauses of the ramp, with rising and with falling output levels. -/
theorem witness_TableRange : byte255 16384 ≤ 63 ∧ 190 < byte255 49152 ∧ (190 : Nat) ≤ 255 ∧ (0 : Nat) ≤ 65536 ∧
    (32768 : Nat) < 65536 := by decide

theorem witness_InvertedRange : byte255 16384 < byte255 49152 ∧ byte255 32768 ≤ byte255 32768 ∧
    (49152 : Nat) ≤ 65536 ∧ (65536 : Nat) ≤ 65536 := by decide

theorem witness_Degenerate : byte255 32768 = byte255 32769 ∧ byte255 65536 ≠ byte255 0 ∧ byte255 257 = 0 ∧
    (32769 : Nat) ≤ 65536 := by decide

theorem witness_Monotone : byte255 0 ≤ byte255 65536 ∧ (3 : Byte).toNat ≤ (255 : Byte).toNat ∧ (0 : Nat) ≤ 32768 ∧
    (0 : Nat) < 65536 := by decide

/-! ### Witnesses: the sample pipeline and memory -/

theorem witness_ByteAssembly : p1Mem.read 0x1002 = 0x34 ∧ p1Mem.read (0x1002 + 1) = 0x12 := by decide +kernel

theorem witness_UnsignedIndex : (0x12FF : Sample).toNat / 256 = (0x1200 : Sample).toNat / 256 := by decide

theorem witness_SignedIndex : (0x8000 : Sample).toInt ≤ (0x7FFF : Sample).toInt := by decide

theorem witness_Combine : (0 : Nat) ≤ 1023 ∧ (1023 : Nat) ≤ 1023 ∧
    ((p2 0 0 0).offset = 0 ∧ (p2 0 0 0).shift = 8 ∧ (p2 0 0 0).lumaMask = 0xFF ∧ (p2 0 0 0).chromaMask = 0xFF ∧
      (p2 0 0 0).swap = 0) ∧
    ((p2 1 0 0).offset = 0 ∧ (p2 1 0 0).shift = 8 ∧ (p2 1 0 0).lumaMask = 0xFF ∧ (p2 1 0 0).chromaMask = 0xFF ∧
      (p2 1 0 0).swap = 1) := by decide

/-- V-TBP-1 and V-TBP-2: two words that differ in the ignored bits. -/
theorem witness_TenBitFields : (0xC0300801 : Word32).toNat % 2 ^ 30 = (0x00300801 : Word32).toNat % 2 ^ 30 ∧
    (0x00601404 : Word32).toNat % 2 ^ 30 = (0x00601404 : Word32).toNat % 2 ^ 30 := by decide

theorem witness_Memory : p1Mem.wf = true ∧ 255 < 2 ^ (8 * 1) ∧ 65535 < 2 ^ (8 * 2) ∧ 4294967295 < 2 ^ (8 * 4) ∧
    0xFFFFFFFF + 1 ≤ 2 ^ 32 ∧ ¬ 0xFFFFFFFF + 2 ≤ 2 ^ 32 ∧ 0xFFFFFFFC + 4 ≤ 2 ^ 32 := by decide +kernel

/-! ### Witnesses: `LEVEL` -/

/-- Each test of R161 failing first, and a passing frame: also V-VAL-9's order, the earlier test winning. -/
theorem witness_LevelValidation :
    levelVerdict (levelRegs 0 3 2 8 6 0x1000 16 0x2000 4) = 0x0100000000000006 ∧
    levelVerdict (levelRegs 0 3 2 4 4 0x1000 16 0x2000 8) = 0x0100000000000007 ∧
    levelVerdict (levelRegs 0 3 2 8 4 0x1002 16 0x2000 8) = 0x0100000000000008 ∧
    levelVerdict (levelRegs 0 3 2 8 4 0xFFFFFFF8 16 0x2000 8) = 0x0100000000000009 ∧
    levelVerdict (levelRegs 0 3 2 8 4 0x1000 15 0x2000 8) = 0x0200000000000001 ∧
    levelVerdict (levelRegs 0 3 2 8 4 0x1000 16 0x2000 7) = 0x0200000000000002 ∧
    levelVerdict (levelRegs 0 3 1 8 4 0xFFFFFFF8 8 0x2000 4) = 0 ∧ levelVerdict (p1 0) = 0 := by decide

/-- Disjoint buffers; also the premises of `LevelWritesPixelBytesOnly`, `LevelStoresRowMajorOnce` and
`LevelIsAFoldInProgramOrder`. -/
theorem witness_LevelMaps_disjoint : levelVerdict (levelState (p1 3) p1Mem).lv = 0 ∧
    (levelState (p1 3) p1Mem).mem.wf = true ∧ (levelState (p1 3) p1Mem).lv.shape.Disjoint :=
  ⟨by decide, by decide +kernel, .inl (by decide)⟩

/-- In place: one base and one stride. -/
theorem witness_LevelMaps_inPlace : levelVerdict (levelRegs 2 3 2 8 8 0x1000 16 0x1000 16) = 0 ∧
    (levelState (levelRegs 2 3 2 8 8 0x1000 16 0x1000 16) p1Mem).mem.wf = true ∧
    (levelRegs 2 3 2 8 8 0x1000 16 0x1000 16).shape.InPlace :=
  ⟨by decide, by decide +kernel, by decide, by decide⟩

/-- A frame of no columns and a frame of no rows, in a state that is not the reset state. -/
theorem witness_LevelEmpty : (levelVerdict (levelRegs 0 0 2 8 4 0x1000 16 0x2000 8) = 0 ∧
      (levelRegs 0 0 2 8 4 0x1000 16 0x2000 8).width = 0) ∧
    (levelVerdict (levelRegs 0 3 0 8 4 0x1000 0 0x2000 0) = 0 ∧
      (levelRegs 0 3 0 8 4 0x1000 0 0x2000 0).height = 0) := by decide

/-! ### Witnesses: `UNPACK` -/

/-- V-VAL-1 to V-VAL-12. -/
theorem witness_UnpackValidation :
    unpackVerdict (val 3 3 1 16 8 0x5000 16 8) = 0x0100000000000004 ∧
    unpackVerdict (val 1 4 1 16 8 0x5000 16 8) = 0x0100000000000005 ∧
    unpackVerdict (val 2 3 1 16 6 0x5000 16 8) = 0x0100000000000006 ∧
    unpackVerdict (val 2 3 1 16 4 0x5000 16 8) = 0x0100000000000007 ∧
    unpackVerdict (val 2 3 1 16 8 0x5002 16 8) = 0x0100000000000008 ∧
    unpackVerdict (val 2 3 1 16 8 0xFFFFFFF8 16 8) = 0x0100000000000009 ∧
    unpackVerdict (val 2 3 2 16 8 0x5000 16 8) = 0x0200000000000001 ∧
    unpackVerdict (val 2 3 1 16 8 0x5000 16 4) = 0x0200000000000002 ∧
    unpackVerdict (val 2 3 1 16 6 0x5000 16 4) = 0x0100000000000006 ∧
    unpackVerdict (val 1 4 1 16 6 0x5000 16 8) = 0x0100000000000005 ∧
    unpackVerdict (val 2 0 1 16 8 0x5000 16 8) = 0 ∧
    unpackVerdict (val 2 3 1 8 8 0xFFFFFFF8 8 8) = 0 := by decide

/-- InterleavedByte, disjoint; also the premises of `UnpackWritesSampleBytesOnly`, `UnpackStoresRowMajorOnce` and
`UnpackIsAFoldInProgramOrder`. -/
theorem witness_UnpackInterleaved_disjoint : unpackVerdict (unpackState (p2 1 0xFFF0 0x3100) p2Mem).up = 0 ∧
    (p2 1 0xFFF0 0x3100).layout = 2 ∧ p2Mem.wf = true ∧ (p2 1 0xFFF0 0x3100).shape.Disjoint :=
  ⟨by decide, by decide, by decide +kernel, .inl (by decide)⟩

theorem witness_UnpackInterleaved_inPlace : unpackVerdict (p2 1 0 0x3000) = 0 ∧ (p2 1 0 0x3000).layout = 2 ∧
    p2Mem.wf = true ∧ (p2 1 0 0x3000).shape.InPlace :=
  ⟨by decide, by decide, by decide +kernel, by decide, by decide⟩

theorem witness_UnpackTenBit_disjoint : unpackVerdict (unpackState tbp2 tbp2Mem).up = 0 ∧ tbp2.layout = 1 ∧
    tbp2Mem.wf = true ∧ tbp2.shape.Disjoint :=
  ⟨by decide, by decide, by decide +kernel, .inl (by decide)⟩

theorem witness_UnpackTenBit_inPlace : unpackVerdict { tbp2 with dstBase := 0x4000 } = 0 ∧
    ({ tbp2 with dstBase := 0x4000 } : UnpackRegs).layout = 1 ∧ tbp2Mem.wf = true ∧
    ({ tbp2 with dstBase := 0x4000 } : UnpackRegs).shape.InPlace :=
  ⟨by decide, by decide, by decide +kernel, by decide, by decide⟩

theorem witness_UnpackEmpty : (unpackVerdict (val 2 0 1 16 8 0x5000 16 8) = 0 ∧ (val 2 0 1 16 8 0x5000 16 8).width = 0) ∧
    (unpackVerdict (val 1 3 0 16 8 0x5000 0 0) = 0 ∧ (val 1 3 0 16 8 0x5000 0 0).height = 0) := by decide

/-! ### Witness: the pipeline -/

/-- The state of program P3 before its first `UNPACK`, all registers written. -/
def p3 : State :=
  { State.reset with
    up := unpackRegs 1 0 6 0 0x3FF 0 3 1 8 8 0x4000 8 0x4100 8
    lv := levelRegs 0 3 1 8 4 0x4100 8 0x4200 4
    lut := (levelRegs 0 3 1 8 4 0x4100 8 0x4200 4).table
    mem := tbp2Mem }

theorem witness_Pipeline : (unpackVerdict p3.up = 0 ∧ levelVerdict p3.lv = 0 ∧ p3.mem.wf = true) ∧
    p3.up.shape.Disjoint ∧ p3.lv.shape.Disjoint ∧
    (p3.lv.srcBase = p3.up.dstBase ∧ p3.lv.inStride = p3.up.outStride ∧ p3.lv.width = p3.up.width ∧
      p3.lv.height = p3.up.height ∧ p3.lv.endianIn = false ∧ p3.lv.signedIn = false) :=
  ⟨⟨by decide, by decide, by decide +kernel⟩, .inl (by decide), .inl (by decide), by decide⟩

end Sys2Proof.Tests
end

section
/-! PROOFS. The scope of the block (spec/00_scope.md): a step runs the command the host issues (R8), and the two
kernels share no register and no table (R9). -/

namespace Sys2Proof.Machine

/-! ### From the word to its command -/

/-- A legal word executes as the command it decodes to (R99). -/
theorem runCommand_of_decode {w : CommandWord} {i : Instr} (h : decode w = .instr i) (s : State) :
    runCommand w s = exec i s := by
  rw [runCommand, h]

theorem exec_level (s : State) : exec .level s = execLevel s := rfl

theorem exec_unpack (s : State) : exec .unpack s = execUnpack s := rfl

/-- Settles O6: the word leaves the port, and what runs is its decoded command. -/
theorem stepRunsTheDecodedCommand : Obligations.StepRunsTheDecodedCommand := by
  intro s w rest i hhost hdecode
  rw [step_command hhost, runCommand_of_decode hdecode]

/-! ### What each kernel's outcome is computed from

With `execLevel_cases` and `execUnpack_cases` these give both directions: which way a kernel ends, and in which state,
is settled by the registers its validation reads and by the frame its loop makes. -/

section
variable {s : State} {e : CommandError} {f : Transfer}

theorem execLevel_of_failedCheck (hc : levelCheck s.lv = some e) : execLevel s = .next (s.respond e.response) := by
  simp only [execLevel, hc, raise]

theorem execLevel_of_frame (ha : s.lv.Accepts) (hf : levelFrame s.lv s.lut s.mem = some f) :
    execLevel s = .next (State.respond { s with mem := f.mem } 0) := by
  rw [execLevel, (levelCheck_none _).2 ha]
  simp only [hf, finishFrame_some]

theorem execUnpack_of_failedCheck (hc : unpackCheck s.up = some e) : execUnpack s = .next (s.respond e.response) := by
  simp only [execUnpack, hc, raise]

theorem execUnpack_of_frame (ha : s.up.AcceptsTenBit ∨ s.up.AcceptsInterleaved)
    (hf : unpackFrame s.up s.mem = some f) : execUnpack s = .next (State.respond { s with mem := f.mem } 0) := by
  rw [execUnpack, (unpackCheck_none _).2 ha]
  simp only [hf, finishFrame_some]

end

/-! ### The kernels share no state -/

/-- `LEVEL` neither writes nor reads bank 1 (R9). -/
theorem execLevel_ignores_up {s t : State} (h : execLevel s = .next t) (up : UnpackRegs) :
    t.up = s.up ∧ execLevel { s with up := up } = .next { t with up := up } := by
  rcases execLevel_cases s with ⟨e, hc, he⟩ | ⟨ha, f, hf, -, he⟩
  · obtain rfl : s.respond e.response = t := by simpa [he] using h
    exact ⟨rfl, execLevel_of_failedCheck hc⟩
  · obtain rfl : State.respond { s with mem := f.mem } 0 = t := by simpa [he] using h
    exact ⟨rfl, execLevel_of_frame ha hf⟩

/-- `UNPACK` neither writes nor reads bank 0 and the table (R9). -/
theorem execUnpack_ignores_lv_lut {s t : State} (h : execUnpack s = .next t) (lv : LevelRegs) (lut : Table) :
    t.lv = s.lv ∧ t.lut = s.lut ∧
      execUnpack { s with lv := lv, lut := lut } = .next { t with lv := lv, lut := lut } := by
  rcases execUnpack_cases s with ⟨e, hc, he⟩ | ⟨ha, f, hf, -, he⟩
  · obtain rfl : s.respond e.response = t := by simpa [he] using h
    exact ⟨rfl, rfl, execUnpack_of_failedCheck hc⟩
  · obtain rfl : State.respond { s with mem := f.mem } 0 = t := by simpa [he] using h
    exact ⟨rfl, rfl, execUnpack_of_frame ha hf⟩

/-- Settles O16, one kernel at a time, by the two ways a frame command can end. -/
theorem kernelsShareNoState : Obligations.KernelsShareNoState := by
  refine ⟨fun s t up h => ?_, fun s t lv lut h => ?_⟩
  · rw [exec_level] at h ⊢
    exact execLevel_ignores_up h up
  · rw [exec_unpack] at h ⊢
    exact execUnpack_ignores_lv_lut h lv lut

end Sys2Proof.Machine
end

section
/-! PROOFS. The state (spec/10_state.md): the invariant of R24, R53 and R54 at reset and over every step, and the
commands that read or rebuild the state without a frame (R120, R121, R147). -/

namespace Sys2Proof.Machine

/-! ### The commands by their meanings -/

theorem exec_wrreg (n : BitVec 8) (v : Word32) (s : State) : exec (.wrreg n v) s = execWrreg n v s := rfl

theorem exec_rdreg (n : BitVec 8) (s : State) : exec (.rdreg n) s = execRdreg n s := rfl

theorem exec_rdlut (i : BitVec 8) (s : State) :
    exec (.rdlut i) s = .next (s.respond (okResponse ((s.lut.read i).setWidth 32))) := rfl

theorem exec_lutbld (s : State) : exec .lutbld s = .next (s.rebuildLut.respond 0) := rfl

theorem answered_eq_respond (s : State) (w : ResponseWord) : Spec.answered s w = s.respond w := rfl

/-! ### The invariant under each operation on the state -/

section
variable {s : State}

theorem State.Inv.withHost (hs : s.Inv) (rest : List HostAction) : State.Inv { s with host := rest } :=
  ⟨hs.legal, hs.table, hs.memory⟩

theorem State.Inv.respond (hs : s.Inv) (w : ResponseWord) : (s.respond w).Inv :=
  ⟨hs.legal, hs.table, hs.memory⟩

theorem State.Inv.withMem (hs : s.Inv) {m : Memory} (hm : m.wf = true) : State.Inv { s with mem := m } :=
  ⟨hs.legal, hs.table, hm⟩

/-- Every address a host can name is inside the address space (R60). -/
theorem State.Inv.hostWrite (hs : s.Inv) (a : BitVec 32) (v : Byte) : (s.hostWrite a v).Inv :=
  hs.withMem (Memory.write_wf hs.memory a.isLt)

theorem State.Inv.rebuildLut (hs : s.Inv) : s.rebuildLut.Inv :=
  ⟨hs.legal, rfl, hs.memory⟩

/-- Where the table is already the one the registers call for, a rebuild is no change (R53). -/
theorem State.rebuildLut_of_inv (hs : s.Inv) : s.rebuildLut = s := by
  rw [State.rebuildLut, ← hs.table]

/-- Writing a register that is no level parameter leaves the table the level registers call for (R124). -/
theorem State.writeReg_table {r : Reg} (v : Word32) (hr : r.rebuildsTable = false) :
    (s.writeReg r v).lv.table = s.lv.table := by
  obtain ⟨hli, hhi, hlo, hho⟩ := s.writeReg_level_params r v hr
  rw [LevelRegs.table, hli, hhi, hlo, hho, LevelRegs.table]

/-- An accepted `WRREG` keeps the invariant: the operand is legal, and the table follows a level parameter (R123). -/
theorem State.Inv.configure (hs : s.Inv) {r : Reg} {v : Word32} (hv : v.toNat ≤ r.maxLegal) :
    (s.configure r v).Inv where
  legal := by
    rw [State.configure_lv]
    exact s.writeReg_legal r v hs.legal hv
  table := by
    rw [State.configure_lut, State.configure_lv]
    split
    · rfl
    · next hr => rw [State.writeReg_table v (by simpa using hr), hs.table]
  memory := by
    rw [State.configure_mem]
    exact hs.memory

end

/-! ### The invariant at reset -/

/-- With all four level registers 0 every index is past the ramp, at the level byte of 0 (R149). -/
theorem lutEntry_zero (i : Nat) : lutEntry 0 0 0 0 i = 0 := by
  rw [lutEntry, lutEntryExact_high (Nat.zero_le i) (Nat.zero_le i)]
  rfl

/-- The table of zeros that reset leaves is the one the reset registers call for (R53, R261). -/
theorem Table.reset_eq_table : Table.reset = LevelRegs.reset.table := by
  apply Subtype.ext
  symm
  refine List.eq_replicate_iff.2 ⟨LevelRegs.reset.table.property, fun b hb => ?_⟩
  obtain ⟨i, -, rfl⟩ := List.mem_map.1 hb
  exact lutEntry_zero i

theorem LevelRegs.reset_legal : LevelRegs.reset.Legal := by
  unfold LevelRegs.Legal
  decide

/-- Reset establishes the part about registers and table in any state, and leaves memory as it is (R261, R262). -/
theorem State.Inv.afterReset {s : State} (hm : s.mem.wf = true) : s.afterReset.Inv :=
  ⟨LevelRegs.reset_legal, Table.reset_eq_table, hm⟩

/-- Settles O11: reset's registers and table, over a memory that lists no byte. -/
theorem resetMeetsInvariant : Obligations.ResetMeetsInvariant :=
  ⟨LevelRegs.reset_legal, Table.reset_eq_table, rfl⟩

/-! ### The invariant over every step -/

/-- A command ends in an answer alone, a legal register write, a rebuild, or stores inside memory: each keeps the
invariant. -/
theorem exec_next_inv (i : Instr) {s : State} (hs : s.Inv) : ∃ t, exec i s = .next t ∧ t.Inv := by
  cases i with
  | wrreg n v =>
    rw [exec_wrreg]
    rcases execWrreg_cases n v s with ⟨e, h⟩ | ⟨r, -, hv, h⟩
    · exact ⟨_, h, hs.respond _⟩
    · exact ⟨_, h, (hs.configure hv).respond _⟩
  | rdreg n =>
    rw [exec_rdreg]
    rcases execRdreg_cases n s with ⟨e, -, h⟩ | ⟨r, -, h⟩
    · exact ⟨_, h, hs.respond _⟩
    · exact ⟨_, h, hs.respond _⟩
  | rdlut index => exact ⟨_, exec_rdlut index s, hs.respond _⟩
  | lutbld => exact ⟨_, exec_lutbld s, hs.rebuildLut.respond _⟩
  | level =>
    rw [exec_level]
    rcases execLevel_cases s with ⟨e, -, h⟩ | ⟨-, f, -, hreplay, h⟩
    · exact ⟨_, h, hs.respond _⟩
    · exact ⟨_, h, (hs.withMem (Memory.replay_wf hs.memory hreplay)).respond _⟩
  | unpack =>
    rw [exec_unpack]
    rcases execUnpack_cases s with ⟨e, -, h⟩ | ⟨-, f, -, hreplay, h⟩
    · exact ⟨_, h, hs.respond _⟩
    · exact ⟨_, h, (hs.withMem (Memory.replay_wf hs.memory hreplay)).respond _⟩

theorem runCommand_next_inv (w : CommandWord) {s : State} (hs : s.Inv) : ∃ t, runCommand w s = .next t ∧ t.Inv := by
  rw [runCommand]
  cases decode w with
  | instr i => exact exec_next_inv i hs
  | rejected why => exact ⟨_, rfl, hs.respond _⟩

/-- A command cut short by reset has made the first `k` of its writes and nothing else (R260). -/
theorem resetDuring_eq_replay (w : CommandWord) (k : Nat) (s : State) :
    ∃ stores m, commandStores w s = some stores ∧ s.mem.replay (stores.take k) = some m ∧
      resetDuring w k s = .next { s.afterReset with mem := m } := by
  obtain ⟨stores, u, hstores, -, hreplay⟩ := commandStores_spec w s
  obtain ⟨m, hm⟩ := Memory.replay_take hreplay k
  refine ⟨stores, m, hstores, hm, ?_⟩
  rw [resetDuring, hstores, Option.bind_some, hm]

theorem resetDuring_next_inv (w : CommandWord) (k : Nat) {s : State} (hs : s.Inv) :
    ∃ t, resetDuring w k s = .next t ∧ t.Inv := by
  obtain ⟨stores, m, -, hreplay, h⟩ := resetDuring_eq_replay w k s
  exact ⟨_, h, (State.Inv.afterReset hs.memory).withMem (Memory.replay_wf hs.memory hreplay)⟩

/-- From a state that meets the invariant every step answers a next state, and that state meets it too. -/
theorem step_next_inv {s : State} (hs : s.Inv) : ∃ t, step s = .next t ∧ t.Inv := by
  cases hhost : s.host with
  | nil => exact ⟨s, step_idle hhost, hs⟩
  | cons action rest =>
    cases action with
    | command w =>
      rw [step_command hhost]
      exact runCommand_next_inv w (hs.withHost rest)
    | writeByte a v => exact ⟨_, step_writeByte hhost, (hs.withHost rest).hostWrite a v⟩
    | reset => exact ⟨_, step_reset hhost, State.Inv.afterReset hs.memory⟩
    | resetDuring w k =>
      rw [step_resetDuring hhost]
      exact resetDuring_next_inv w k (hs.withHost rest)

/-- Settles O12: the next state is the one `step_next_inv` gives, by the host's action and the command's outcome. -/
theorem everyStepKeepsInvariant : Obligations.EveryStepKeepsInvariant := by
  intro s t hs hstep
  obtain ⟨u, hu, hinv⟩ := step_next_inv hs
  obtain rfl : u = t := Host.Outcome.next.inj (hu.symm.trans hstep)
  exact hinv

/-! ### Reading and refusing registers -/

/-- The register table leaves no gap in the two stretches of numbers that R95 lists. -/
theorem Reg.exists_number_eq : ∀ k < 0x1E, k ≤ 0x0C ∨ 0x10 ≤ k →
    ∃ r ∈ Reg.all, r.number = BitVec.ofNat 8 k := by
  decide

theorem Reg.namesRegister_number (r : Reg) : Spec.NamesRegister r.number := by
  cases r <;> decide

/-- The spec's list of register numbers is the model's register table (R24, R95). -/
theorem namesRegister_iff (n : BitVec 8) : Spec.NamesRegister n ↔ ∃ r : Reg, r.number = n := by
  constructor
  · intro hn
    obtain ⟨r, -, hr⟩ := Reg.exists_number_eq n.toNat (by omega) (by omega)
    exact ⟨r, by rw [hr, BitVec.ofNat_toNat, BitVec.setWidth_eq]⟩
  · rintro ⟨r, rfl⟩
    exact r.namesRegister_number

/-- The spec's legal ranges by register number are the model's by register (R24, R120). -/
theorem maxLegal_number (r : Reg) : Spec.maxLegal r.number = r.maxLegal := by
  cases r <;> rfl

/-- `WRREG` of a named register and a value above its range. -/
theorem execWrreg_outOfRange {r : Reg} {v : Word32} (s : State) (h : r.maxLegal < v.toNat) :
    execWrreg r.number v s = .next (s.respond (CommandError.configuration .operandRange).response) := by
  rw [execWrreg, Reg.ofNumber_number]
  exact if_pos h

/-- Settles O18: the number is some register's, whose own range the operand exceeds. -/
theorem outOfRangeOperandIsRefused : Obligations.OutOfRangeOperandIsRefused := by
  intro n v s hn hv
  obtain ⟨r, rfl⟩ := (namesRegister_iff n).1 hn
  rw [maxLegal_number] at hv
  rw [exec_wrreg, execWrreg_outOfRange s hv, answered_eq_respond]
  rfl

/-- `RDREG` of a named register. -/
theorem execRdreg_ok (r : Reg) (s : State) :
    execRdreg r.number s = .next (s.respond (okResponse (s.readReg r))) := by
  rw [execRdreg, Reg.ofNumber_number]
  rfl

/-- Settles O20: `execRdreg_ok`, with the response OK written as the register's value zero-extended. -/
theorem rdregAnswersTheRegister : Obligations.RdregAnswersTheRegister := by
  intro r s
  rw [exec_rdreg, execRdreg_ok, okResponse_eq, answered_eq_respond]

/-! ### `LUTBLD` -/

/-- Settles O23: `LUTBLD` is a rebuild and an OK response, and under the invariant the rebuild is no change. -/
theorem lutbldRebuildsTheTable : Obligations.LutbldRebuildsTheTable := by
  refine ⟨fun s => ?_, fun s hs => ?_⟩
  · rw [exec_lutbld, ← LevelRegs.table_eq]
    rfl
  · rw [exec_lutbld, State.rebuildLut_of_inv hs, answered_eq_respond]

end Sys2Proof.Machine
end

section
/-! PROOFS. Memory (spec/20_memory.md): what `MemRead` and `MemWrite` are (R61), where the elements of a buffer lie
(R64), and what the two frame commands do to memory, byte by byte and in program order (R67, R69, R75). -/

namespace Sys2Proof.Machine

open Sys2Proof.Spec

/-! ### No step stops, and the host's actions between commands -/

/-- Settles O10: a command runs its stores to the end, one cut short by reset a beginning of them, and the host's other
actions make no access that could fail. -/
theorem everyStepAnswersNextState : Obligations.EveryStepAnswersNextState := by
  intro s
  cases hhost : s.host with
  | nil => exact ⟨s, step_idle hhost⟩
  | cons action rest =>
    cases action with
    | command w =>
      obtain ⟨_, t, -, ht, -⟩ := commandStores_spec w { s with host := rest }
      exact ⟨t, (step_command hhost).trans ht⟩
    | writeByte a v => exact ⟨_, step_writeByte hhost⟩
    | reset => exact ⟨_, step_reset hhost⟩
    | resetDuring w k =>
      obtain ⟨_, _, -, -, ht⟩ := resetDuring_eq_replay w k { s with host := rest }
      exact ⟨_, (step_resetDuring hhost).trans ht⟩

/-- Settles O7: each clause is the step of that action, the first with what a byte write does to memory. -/
theorem hostActsBetweenCommands : Obligations.HostActsBetweenCommands := by
  refine ⟨fun s a v rest hhost hm => ?_, fun s rest hhost => ?_, fun s hhost => step_idle hhost⟩
  · exact ⟨_, step_writeByte hhost, Memory.read_write_same hm, fun b hb => Memory.read_write_other hb, rfl⟩
  · exact ⟨_, step_reset hhost, rfl, rfl⟩

/-! ### `MemRead`, `MemWrite` and element addresses -/

/-- A little-endian access is the sum of R61, for any number of bytes. -/
theorem Memory.littleEndian_eq_sum (m : Memory) (a n : Nat) :
    m.littleEndian a n = ((List.range n).map fun k => (m.read (a + k)).toNat * 2 ^ (8 * k)).sum := by
  induction n generalizing a with
  | zero => rfl
  | succ n ih =>
    have hshift : ∀ k, (m.read (a + (k + 1))).toNat * 2 ^ (8 * (k + 1)) =
        256 * ((m.read (a + 1 + k)).toNat * 2 ^ (8 * k)) := fun k => by
      rw [show a + (k + 1) = a + 1 + k by omega, show 8 * (k + 1) = 8 * k + 8 by omega, Nat.pow_add]
      ring
    rw [Memory.littleEndian, ih, List.range_succ_eq_map, List.map_cons, List.sum_cons, List.map_map,
      ← List.sum_map_mul_left]
    simp only [Function.comp_def, Nat.succ_eq_add_one, hshift, Nat.add_zero, Nat.mul_zero, Nat.pow_zero, Nat.mul_one]

theorem pow_bytes_eq (n : Nat) : 2 ^ (8 * n) = 256 ^ n := Nat.pow_mul 2 8 n

/-- Settles O38: `MemRead` is `Memory.littleEndian_eq_sum` in its range, and the byte-by-byte account of a
little-endian write gives each clause about `MemWrite`. -/
theorem memoryReadsBackWhatWasWritten : Obligations.MemoryReadsBackWhatWasWritten := by
  refine ⟨fun m a n _ => ?_, fun m a n v _ hm hv => ⟨fun hout => if_neg hout, fun hin => ?_⟩⟩
  · rw [Memory.memRead, Memory.littleEndian_eq_sum]
  · rw [pow_bytes_eq] at hv
    refine ⟨_, Memory.memWrite_eq hin, Memory.putLittleEndian_wf hm hin, ?_, fun k hk => ?_, fun b hb => ?_⟩
    · rw [Memory.memRead_eq hin, Memory.littleEndian_put_same hm hin hv]
    · rw [Memory.read_putLittleEndian hm hin, if_pos (by omega), Nat.add_sub_cancel_left, BitVec.toNat_ofNat,
        pow_bytes_eq]
    · rw [Memory.read_putLittleEndian hm hin, if_neg (by omega)]

/-- Settles O39: every address is `elementAddr` with its buffer's base and stride and an element size of 1, 2 or 8. -/
theorem elementAddressesAreByteOffsets : Obligations.ElementAddressesAreByteOffsets := by
  have haddr : ∀ base stride r j e, elementAddr base stride r j e = base + r * stride + e * j :=
    fun base stride r j e => by rw [elementAddr, Nat.mul_comm j e]
  refine ⟨fun p r c => ⟨haddr _ _ _ _ _, ?_⟩, fun p r c => ⟨haddr _ _ _ _ _, haddr _ _ _ _ _, haddr _ _ _ _ _⟩⟩
  exact (haddr _ _ _ _ _).trans (by rw [Nat.one_mul])

/-! ### The frames that the two verdicts accept -/

/-- The response that a validation's outcome stands for: OK when no test failed. -/
def verdictOf (e : Option CommandError) : ResponseWord := e.elim 0 CommandError.response

theorem verdictOf_eq_zero_iff {e : Option CommandError} : verdictOf e = 0 ↔ e = none := by
  cases e with
  | none => exact ⟨fun _ => rfl, fun _ => rfl⟩
  | some e =>
    refine ⟨fun h => absurd ?_ e.status_ne_zero, fun h => nomatch h⟩
    rw [show e.response = 0 from h]
    rfl

/-- The six common tests as responses, in the order of R161. -/
theorem verdictOf_checks (f : FrameShape) : verdictOf (firstFailure f.checks) =
    if f.inStride % 4 ≠ 0 ∨ f.outStride % 4 ≠ 0 then 0x0100000000000006
    else if f.inStride < f.srcRowBytes ∨ f.outStride < f.dstRowBytes then 0x0100000000000007
    else if f.srcBase % 4 ≠ 0 ∨ f.dstBase % 4 ≠ 0 then 0x0100000000000008
    else if f.srcBase + f.srcSize > 2 ^ 32 ∨ f.dstBase + f.dstSize > 2 ^ 32 then 0x0100000000000009
    else if f.rows * f.inStride > f.srcSize then 0x0200000000000001
    else if f.rows * f.outStride > f.dstSize then 0x0200000000000002
    else 0 := by
  simp only [FrameShape.checks, firstFailure, decide_eq_true_eq, apply_ite verdictOf]
  rfl

/-- The spec's verdict on `LEVEL` is the model's validation (R161). -/
theorem levelVerdict_eq (p : LevelRegs) : levelVerdict p = verdictOf (levelCheck p) :=
  (verdictOf_checks p.shape).symm

theorem UnpackRegs.srcRowBytes_eq (p : UnpackRegs) : p.srcRowBytes = unpackRowBytes p := by
  rw [UnpackRegs.srcRowBytes, unpackRowBytes]
  simp only [UnpackRegs.isTenBit_iff]

/-- The spec's verdict on `UNPACK` is the model's validation (R182). -/
theorem unpackVerdict_eq (p : UnpackRegs) : unpackVerdict p = verdictOf (unpackCheck p) := by
  rw [unpackCheck_eq, apply_ite verdictOf, apply_ite verdictOf, verdictOf_checks]
  simp only [UnpackRegs.shape, UnpackRegs.srcRowBytes_eq]
  rfl

theorem levelVerdict_eq_zero_iff (p : LevelRegs) : levelVerdict p = 0 ↔ p.Accepts := by
  rw [levelVerdict_eq, verdictOf_eq_zero_iff, levelCheck_none]

theorem unpackVerdict_eq_zero_iff (p : UnpackRegs) :
    unpackVerdict p = 0 ↔ p.AcceptsTenBit ∨ p.AcceptsInterleaved := by
  rw [unpackVerdict_eq, verdictOf_eq_zero_iff, unpackCheck_none]

/-! ### Frames in row-major order -/

theorem rowMajor_succ (rows cols : Nat) :
    rowMajor (rows + 1) cols = rowMajor rows cols ++ (List.range cols).map (Prod.mk rows) := by
  simp [rowMajor, List.range_succ]

theorem mem_rowMajor {rows cols : Nat} {rc : Nat × Nat} :
    rc ∈ rowMajor rows cols ↔ rc.1 < rows ∧ rc.2 < cols := by
  simp [rowMajor, Prod.ext_iff]

theorem rowMajor_nodup (rows cols : Nat) : (rowMajor rows cols).Nodup :=
  List.Nodup.product List.nodup_range List.nodup_range

/-- Addresses that tell the units of a frame apart stand once each in its row-major list. -/
theorem rowMajor_addresses_nodup {rows cols : Nat} {addr : Nat → Nat → Nat}
    (hinj : ∀ r c r' c', c < cols → c' < cols → addr r c = addr r' c' → r = r' ∧ c = c') :
    ((rowMajor rows cols).map fun rc => addr rc.1 rc.2).Nodup := by
  refine (rowMajor_nodup rows cols).map_on fun x hx y hy hxy => ?_
  obtain ⟨hr, hc⟩ := hinj x.1 x.2 y.1 y.2 (mem_rowMajor.1 hx).2 (mem_rowMajor.1 hy).2 hxy
  exact Prod.ext hr hc

theorem map_rowMajor (rows cols : Nat) (g : Nat × Nat → Nat) :
    (rowMajor rows cols).map g =
      (List.range rows).flatMap fun r => (List.range cols).map fun c => g (r, c) := by
  simp [rowMajor, List.map_flatMap, Function.comp_def]

/-- Groups of three in order are their members in order (R187). -/
theorem flatMap_range_three (n : Nat) (g : Nat → Nat) :
    (List.range n).flatMap (fun i => [g (3 * i), g (3 * i + 1), g (3 * i + 2)]) =
      (List.range (3 * n)).map g := by
  induction n with
  | zero => rfl
  | succ n ih =>
    rw [List.range_succ, List.flatMap_append, ih, show 3 * (n + 1) = 3 * n + 1 + 1 + 1 by omega]
    simp [List.range_succ]

/-- A frame whose every unit changes memory by `g` changes it by the fold of `g` over its units in the order of R67,
whatever the units overlap. -/
theorem frameLoop_eq_foldl {rows units : Nat} {unit : Nat → Nat → Transfer → Option Transfer} {m : Memory}
    (g : Memory → Nat × Nat → Memory)
    (hunit : ∀ r c t, r < rows → c < units → ∃ t', unit r c t = some t' ∧ t'.mem = g t.mem (r, c)) :
    ∃ t, frameLoop rows units unit m = some t ∧ t.mem = (rowMajor rows units).foldl g m := by
  have hloop := frameLoop_invariant (rows := rows) (units := units) (unit := unit) (m := m)
    (fun r c t => t.mem = (rowMajor r units ++ (List.range c).map (Prod.mk r)).foldl g m) rfl ?_ ?_
  · simpa using hloop
  · intro r c t hr hc ht
    obtain ⟨t', ht', hmem⟩ := hunit r c t hr hc
    refine ⟨t', ht', ?_⟩
    rw [hmem, ht, List.range_succ, List.map_append, ← List.append_assoc, List.foldl_append (l' := List.map _ [c])]
    rfl
  · intro r t _ ht
    rw [ht, rowMajor_succ]
    simp

/-- The stores of a frame whose units all write `w` bytes at a time: they are all that it does to memory, their
addresses do not depend on memory, and each is `w` bytes wide. -/
theorem UnitSpec.run_stores {rows units k n : Nat} {unit : Nat → Nat → Transfer → Option Transfer}
    {src dst : Nat → Nat → Nat} {bytes : Nat → Nat → Memory → Nat → Byte} {stores : Nat → Nat → Memory → List Store}
    (h : UnitSpec rows units unit src k dst n bytes stores) {w : Nat}
    (hwidth : ∀ r c m', ∀ x ∈ stores r c m', x.width = w) (m : Memory) :
    ∃ t, frameLoop rows units unit m = some t ∧ m.replay t.stores = some t.mem ∧
      (t.stores.map Store.addr = (List.range rows).flatMap fun r =>
        (List.range units).flatMap fun c => (stores r c m).map Store.addr) ∧
      ∀ x ∈ t.stores, x.width = w := by
  obtain ⟨t, ht, hreplay⟩ := h.completes (m := m)
  obtain ⟨t₁, ht₁, haddr⟩ := h.addresses (m := m) m
  obtain ⟨t₂, ht₂, hw⟩ := frameLoop_invariant (rows := rows) (units := units) (unit := unit) (m := m)
    (fun _ _ t => ∀ x ∈ t.stores, x.width = w) (by simp)
    (fun r c t hr hc hP => by
      obtain ⟨t', ht', hs, -⟩ := h.total r c t hr hc
      refine ⟨t', ht', fun x hx => ?_⟩
      rw [hs] at hx
      exact (List.mem_append.1 hx).elim (hP x) (hwidth r c t.mem x))
    fun _ _ _ hP => hP
  obtain rfl : t₁ = t := Option.some.inj (ht₁.symm.trans ht)
  obtain rfl : t₂ = t₁ := Option.some.inj (ht₂.symm.trans ht)
  exact ⟨t₂, ht, hreplay, haddr, hw⟩

/-! ### `LEVEL` -/

/-- `LEVEL` on an accepted frame: the loop's memory, the response OK, and nothing else (R160). -/
theorem exec_level_of_frame {s : State} {f : Transfer} (ha : s.lv.Accepts)
    (hf : levelFrame s.lv s.lut s.mem = some f) : exec .level s = .next { answered s 0 with mem := f.mem } :=
  execLevel_of_frame ha hf

/-- Settles O41: the loop leaves alone every byte outside its pixels' destinations. -/
theorem levelWritesPixelBytesOnly : Obligations.LevelWritesPixelBytesOnly := by
  intro s hv hm
  have ha := (levelVerdict_eq_zero_iff _).1 hv
  obtain ⟨f, hf, -, hother⟩ := (levelPixel_spec (lut := s.lut) ha).frame hm
  refine ⟨_, exec_level_of_frame ha hf, rfl, fun a hne => hother a fun r c hr hc hin => hne r c hr hc ?_⟩
  omega

/-- Settles O42: no pixel reads what an earlier one wrote, so each maps the sample that memory held at the start. -/
theorem levelMapsEverySample : Obligations.LevelMapsEverySample := by
  intro s hv hm hbuf
  have ha := (levelVerdict_eq_zero_iff _).1 hv
  obtain ⟨f, hf, hresult⟩ := (levelPixel_spec (lut := s.lut) ha).result hm
    (fun _ _ _ _ _ _ hc _ hc' => LevelRegs.dst_separate ha hc hc')
    (fun _ _ _ _ _ hr hc hr' hc' => LevelRegs.no_hazard ha hbuf hr hc hr' hc')
  refine ⟨_, exec_level_of_frame ha hf, fun r c hr hc => (hresult r c hr hc 0 (by omega)).trans ?_⟩
  rw [LevelRegs.pixelByte, LevelRegs.assemble_littleEndian, levelSample, levelSampleAt]

/-- The addresses of `LEVEL`'s pixels are all different (R164). -/
theorem LevelRegs.dst_addresses_nodup {p : LevelRegs} (h : p.Accepts) :
    ((rowMajor p.height.toNat p.width.toNat).map fun rc => p.dstAddr rc.1 rc.2).Nodup :=
  rowMajor_addresses_nodup fun _ _ _ _ hc hc' heq =>
    LevelRegs.dst_separate h hc hc' le_rfl (by omega) heq.ge (by omega)

/-- Settles O43: one store a pixel, at an address that memory has no part in. -/
theorem levelStoresRowMajorOnce : Obligations.LevelStoresRowMajorOnce := by
  intro s hv
  have ha := (levelVerdict_eq_zero_iff _).1 hv
  obtain ⟨f, hf, hreplay, haddr, hwidth⟩ :=
    (levelPixel_spec (lut := s.lut) ha).run_stores (w := 1) (by simp) s.mem
  have haddr' : f.stores.map Store.addr =
      (rowMajor s.lv.height.toNat s.lv.width.toNat).map fun rc => s.lv.dstAddr rc.1 rc.2 := by
    rw [haddr, map_rowMajor]
    simp only [List.map_cons, List.map_nil, ← List.map_eq_flatMap]
  exact ⟨f, _, hf, exec_level_of_frame ha hf, rfl, hreplay, haddr', haddr' ▸ LevelRegs.dst_addresses_nodup ha, hwidth⟩

/-- A one-byte little-endian write is a byte write. -/
theorem Memory.putLittleEndian_one (m : Memory) (a : Nat) (v : Byte) : m.putLittleEndian a 1 v.toNat = m.write a v := by
  rw [Memory.putLittleEndian, Memory.putLittleEndian, BitVec.ofNat_toNat, BitVec.setWidth_eq]

/-- What one pixel does, with the values of the spec (R160, R213). -/
theorem levelPixel_eq {p : LevelRegs} (h : p.Accepts) (lut : Table) {r c : Nat} (hr : r < p.height.toNat)
    (hc : c < p.width.toNat) (t : Transfer) :
    levelPixel p lut r c t = some
      ⟨levelPixelWrite p lut t.mem (r, c), t.stores ++ [⟨p.dstAddr r c, 1, (p.pixelByte lut r c t.mem).toNat⟩]⟩ := by
  rw [levelPixel, Transfer.read_eq (p.src_in_space h hr hc)]
  simp only [Transfer.write_eq (p.dst_in_space h hr hc), Memory.putLittleEndian_one, levelPixelWrite, levelSampleAt,
    LevelRegs.pixelByte, LevelRegs.assemble_littleEndian, levelSample]

/-- Settles O44: the loop is the fold of its pixels. -/
theorem levelIsAFoldInProgramOrder : Obligations.LevelIsAFoldInProgramOrder := by
  intro s hv
  have ha := (levelVerdict_eq_zero_iff _).1 hv
  obtain ⟨f, hf, hmem⟩ := frameLoop_eq_foldl (m := s.mem) (levelPixelWrite s.lv s.lut)
    fun r c t hr hc => ⟨_, levelPixel_eq ha s.lut hr hc t, rfl⟩
  rw [exec_level_of_frame ha hf, hmem]

/-! ### `UNPACK` -/

/-- `UNPACK` on an accepted frame: the loop's memory, the response OK, and nothing else (R180). -/
theorem exec_unpack_of_frame {s : State} {f : Transfer} (ha : s.up.AcceptsTenBit ∨ s.up.AcceptsInterleaved)
    (hf : unpackFrame s.up s.mem = some f) : exec .unpack s = .next { answered s 0 with mem := f.mem } :=
  execUnpack_of_frame ha hf

section
variable {p : UnpackRegs} {r c g k : Nat}

theorem UnpackRegs.AcceptsTenBit.unpackFrame_eq (h : p.AcceptsTenBit) (m : Memory) :
    unpackFrame p m = frameLoop p.height.toNat (p.width.toNat / 3) (tenBitGroup p) m :=
  if_pos h.tenBit

theorem UnpackRegs.AcceptsInterleaved.unpackFrame_eq (h : p.AcceptsInterleaved) (m : Memory) :
    unpackFrame p m = frameLoop p.height.toNat p.width.toNat (interleavedPixel p) m :=
  if_neg (by simp [h.notTenBit])

theorem unpackVerdict_tenBit (hv : unpackVerdict p = 0) (hl : p.layout = 1) : p.AcceptsTenBit :=
  ((unpackVerdict_eq_zero_iff p).1 hv).resolve_right fun h => absurd (hl.symm.trans h.1) (by decide)

theorem unpackVerdict_interleaved (hv : unpackVerdict p = 0) (hl : p.layout = 2) : p.AcceptsInterleaved :=
  ((unpackVerdict_eq_zero_iff p).1 hv).resolve_left fun h => absurd (hl.symm.trans h.1) (by decide)

/-- A byte of a group's destination is a byte of one of its three samples (R187). -/
theorem UnpackRegs.exists_lane_of_group_byte {a : Nat} (h1 : p.dstAddr r (3 * g) ≤ a)
    (h2 : a < p.dstAddr r (3 * g) + 6) :
    ∃ k, k < 3 ∧ (a = p.dstAddr r (3 * g + k) ∨ a = p.dstAddr r (3 * g + k) + 1) := by
  refine ⟨(a - p.dstAddr r (3 * g)) / 2, by omega, ?_⟩
  rw [UnpackRegs.dstAddr_lane]
  omega

/-- The loop of `UNPACK` leaves alone every byte outside its destination samples, in both layouts (R75, R189). -/
theorem unpackFrame_read_other (h : p.AcceptsTenBit ∨ p.AcceptsInterleaved) {m : Memory} (hm : m.wf = true) :
    ∃ f, unpackFrame p m = some f ∧ ∀ a, (∀ r c, r < p.height.toNat → c < p.width.toNat →
      a ≠ p.dstAddr r c ∧ a ≠ p.dstAddr r c + 1) → f.mem.read a = m.read a := by
  rcases h with h | h
  · obtain ⟨f, hf, -, hother⟩ := (tenBitGroup_spec h).frame hm
    refine ⟨f, (h.unpackFrame_eq m).trans hf, fun a hne => hother a fun r g hr hg hin => ?_⟩
    obtain ⟨k, hk, ha⟩ := UnpackRegs.exists_lane_of_group_byte hin.1 hin.2
    have := hne r (3 * g + k) hr (by omega)
    omega
  · obtain ⟨f, hf, -, hother⟩ := (interleavedPixel_spec h).frame hm
    refine ⟨f, (h.unpackFrame_eq m).trans hf, fun a hne => hother a fun r c hr hc hin => ?_⟩
    have := hne r c hr hc
    omega

/-! What the bytes read stand for, in the words of the spec. -/

/-- The byte read as a chroma or luma of an InterleavedByte pair (R183). -/
theorem Memory.littleEndian_one (m : Memory) (a : Nat) : m.littleEndian a 1 = (m.read a).toNat := rfl

/-- The pair of an InterleavedByte frame is the spec's (R183, R184). -/
theorem UnpackRegs.pairSample_eq (hl : p.layout = 2) (m : Memory) : p.pairSample r c m = unpackSampleAt p m r c := by
  rw [UnpackRegs.pairSample, unpackSampleAt, pairAt, if_pos hl, Memory.littleEndian_one, Memory.littleEndian_one]

theorem toNat_append_byte {n : Nat} (x : BitVec n) (y : Byte) : (x ++ y).toNat = 256 * x.toNat + y.toNat := by
  rw [BitVec.toNat_append, ← Nat.shiftLeft_add_eq_or_of_lt y.isLt, Nat.shiftLeft_eq, Nat.mul_comm]

/-- Four bytes read little-endian are the spec's word (R62). -/
theorem Memory.ofNat_littleEndian_four (m : Memory) (a : Nat) :
    BitVec.ofNat 32 (m.littleEndian a 4) = wordAt m a := by
  apply BitVec.eq_of_toNat_eq
  have hlt := m.littleEndian_lt a 4
  rw [BitVec.toNat_ofNat, Nat.mod_eq_of_lt (by omega)]
  simp only [wordAt, toNat_append_byte, Memory.littleEndian, Nat.add_assoc, Nat.reduceAdd]
  omega

/-- Field `k` as an integer: ten bits from bit `10k` on (R185). -/
theorem tenBitField_eq (w : Word32) (k : Nat) :
    tenBitField w k = BitVec.ofNat 32 (w.toNat / 2 ^ (10 * k) % 1024) := by
  apply BitVec.eq_of_toNat_eq
  simp [tenBitField, Nat.shiftRight_eq_div_pow]

/-- The pair of each lane of a group is the spec's (R185, R186). -/
theorem tenBitPair_eq (hl : p.layout = 1) (m : Memory) (hk : k < 3) :
    tenBitPair (p.groupWord0 r g m) (p.groupWord1 r g m) k =
      (BitVec.ofNat 32 (pairAt p m r (3 * g + k)).1, BitVec.ofNat 32 (pairAt p m r (3 * g + k)).2) := by
  rw [pairAt, if_neg (by rw [hl]; decide), show (3 * g + k) / 3 = g by omega, show (3 * g + k) % 3 = k by omega,
    UnpackRegs.groupWord0, UnpackRegs.groupWord1, Memory.ofNat_littleEndian_four, Memory.ofNat_littleEndian_four]
  rcases (show k = 0 ∨ k = 1 ∨ k = 2 by omega) with rfl | rfl | rfl <;> simp [tenBitPair, tenBitField_eq]

/-- The sample of each lane of a group is the spec's (R186). -/
theorem UnpackRegs.groupSample_eq (hl : p.layout = 1) (m : Memory) (hk : k < 3) :
    p.groupSample r g k m = unpackSampleAt p m r (3 * g + k) := by
  rw [UnpackRegs.groupSample, tenBitLane, tenBitPair_eq hl m hk, unpackSampleAt]

end

/-- Settles O47: `unpackFrame_read_other`, the rest being the response. -/
theorem unpackWritesSampleBytesOnly : Obligations.UnpackWritesSampleBytesOnly := by
  intro s hv hm
  have ha := (unpackVerdict_eq_zero_iff _).1 hv
  obtain ⟨f, hf, hother⟩ := unpackFrame_read_other ha hm
  exact ⟨_, exec_unpack_of_frame ha hf, rfl, hother⟩

/-- Settles O48: no pair is read after an earlier sample overwrote it. -/
theorem unpackCombinesEveryInterleavedPair : Obligations.UnpackCombinesEveryInterleavedPair := by
  intro s hv hl hm hbuf
  have ha := unpackVerdict_interleaved hv hl
  obtain ⟨f, hf, hresult⟩ := (interleavedPixel_spec ha).result hm
    (fun _ _ _ _ _ _ hc _ hc' => UnpackRegs.dst_separate ha.2 hc hc')
    (fun _ _ _ _ _ hr hc hr' hc' => UnpackRegs.no_hazard_interleaved ha hbuf hr hc hr' hc')
  refine ⟨_, exec_unpack_of_frame (.inr ha) ((ha.unpackFrame_eq _).trans hf), fun r c hr hc => ?_⟩
  have hlow := hresult r c hr hc 0 (by omega)
  have hhigh := hresult r c hr hc 1 (by omega)
  rw [Nat.add_zero] at hlow
  simp only [hlow, hhigh, sampleByte_append]
  exact UnpackRegs.pairSample_eq hl s.mem

/-- Settles O49: column `c` is lane `c % 3` of group `c / 3`, and no group is read after an earlier one overwrote a byte
of it. -/
theorem unpackCombinesEveryTenBitLane : Obligations.UnpackCombinesEveryTenBitLane := by
  intro s hv hl hm hbuf
  have ha := unpackVerdict_tenBit hv hl
  have hwidth := ha.2.1
  obtain ⟨f, hf, hresult⟩ := (tenBitGroup_spec ha).result hm
    (fun _ _ _ _ _ _ hg _ hg' => UnpackRegs.group_separate ha.2.2 hg hg')
    (fun _ _ _ _ _ hr hg hr' hg' => UnpackRegs.no_hazard_tenBit ha hbuf hr hg hr' hg')
  refine ⟨_, exec_unpack_of_frame (.inl ha) ((ha.unpackFrame_eq _).trans hf), fun r c hr hc => ?_⟩
  obtain ⟨g, k, hk, rfl⟩ : ∃ g k, k < 3 ∧ c = 3 * g + k := ⟨c / 3, c % 3, by omega, by omega⟩
  have hlow := hresult r g hr (by omega) (2 * k) (by omega)
  have hhigh := hresult r g hr (by omega) (2 * k + 1) (by omega)
  rw [show 2 * k / 2 = k by omega, show 2 * k % 2 = 0 by omega, ← UnpackRegs.dstAddr_lane] at hlow
  rw [show (2 * k + 1) / 2 = k by omega, show (2 * k + 1) % 2 = 1 by omega, ← Nat.add_assoc,
    ← UnpackRegs.dstAddr_lane] at hhigh
  simp only [hlow, hhigh, sampleByte_append]
  exact UnpackRegs.groupSample_eq hl s.mem hk

/-! The stores of `UNPACK`. -/

/-- The addresses of `UNPACK`'s samples are all different (R189). -/
theorem UnpackRegs.dst_addresses_nodup {p : UnpackRegs} (h : p.shape.Valid) :
    ((rowMajor p.height.toNat p.width.toNat).map fun rc => p.dstAddr rc.1 rc.2).Nodup :=
  rowMajor_addresses_nodup fun _ _ _ _ hc hc' heq =>
    UnpackRegs.dst_separate h hc hc' le_rfl (by omega) heq.ge (by omega)

/-- The stores of `UNPACK` in both layouts: all that it does to memory, two bytes each, at the sample addresses in
row-major order, which memory has no part in (R67, R184, R187). -/
theorem unpackFrame_stores {p : UnpackRegs} (h : p.AcceptsTenBit ∨ p.AcceptsInterleaved) (m : Memory) :
    ∃ f, unpackFrame p m = some f ∧ m.replay f.stores = some f.mem ∧
      (f.stores.map Store.addr = (rowMajor p.height.toNat p.width.toNat).map fun rc => p.dstAddr rc.1 rc.2) ∧
      ∀ w ∈ f.stores, w.width = 2 := by
  rcases h with h | h
  · have hrow : ∀ r, ((List.range (p.width.toNat / 3)).flatMap fun g => (p.groupStores r g m).map Store.addr) =
        (List.range p.width.toNat).map (p.dstAddr r) := fun r =>
      (flatMap_range_three _ (p.dstAddr r)).trans (by rw [Nat.mul_div_cancel' (Nat.dvd_of_mod_eq_zero h.2.1)])
    obtain ⟨f, hf, hreplay, haddr, hw⟩ :=
      (tenBitGroup_spec h).run_stores (w := 2) (by simp [UnpackRegs.groupStores]) m
    refine ⟨f, (h.unpackFrame_eq m).trans hf, hreplay, ?_, hw⟩
    simp only [haddr, map_rowMajor, hrow]
  · obtain ⟨f, hf, hreplay, haddr, hw⟩ := (interleavedPixel_spec h).run_stores (w := 2) (by simp) m
    refine ⟨f, (h.unpackFrame_eq m).trans hf, hreplay, ?_, hw⟩
    rw [haddr, map_rowMajor]
    simp only [List.map_cons, List.map_nil, ← List.map_eq_flatMap]

/-- Settles O50 by `unpackFrame_stores`. -/
theorem unpackStoresRowMajorOnce : Obligations.UnpackStoresRowMajorOnce := by
  intro s hv
  have ha := (unpackVerdict_eq_zero_iff _).1 hv
  have hvalid : s.up.shape.Valid := ha.elim (fun h => h.2.2) (fun h => h.2)
  obtain ⟨f, hf, hreplay, haddr, hwidth⟩ := unpackFrame_stores ha s.mem
  exact ⟨f, _, hf, exec_unpack_of_frame ha hf, rfl, hreplay, haddr, haddr ▸ UnpackRegs.dst_addresses_nodup hvalid,
    hwidth⟩

/-! `UNPACK` as a fold. -/

/-- A two-byte little-endian write of a sample is the spec's store (R216). -/
theorem Memory.putLittleEndian_sample (m : Memory) (a : Nat) (v : Sample) :
    m.putLittleEndian a 2 v.toNat = storeSample m a v := by
  have hlow : BitVec.ofNat 8 v.toNat = v.extractLsb' 0 8 := by
    apply BitVec.eq_of_toNat_eq
    simp
  have hhigh : BitVec.ofNat 8 (v.toNat / 256) = v.extractLsb' 8 8 := by
    apply BitVec.eq_of_toNat_eq
    simp [Nat.shiftRight_eq_div_pow]
  simp only [Memory.putLittleEndian, storeSample, hlow, hhigh]

section
variable {p : UnpackRegs} {r c g : Nat}

/-- What one InterleavedByte pixel does, with the values of the spec (R184). -/
theorem interleavedPixel_eq (h : p.AcceptsInterleaved) (hr : r < p.height.toNat) (hc : c < p.width.toNat)
    (t : Transfer) :
    interleavedPixel p r c t = some
      ⟨pairWrite p t.mem (r, c), t.stores ++ [⟨p.dstAddr r c, 2, (p.pairSample r c t.mem).toNat⟩]⟩ := by
  have hs := UnpackRegs.pair_in_space h hr hc
  rw [pairWrite, ← UnpackRegs.pairSample_eq h.1, ← Memory.putLittleEndian_sample, interleavedPixel,
    Transfer.read_eq (by omega), Transfer.read_eq (by omega)]
  exact Transfer.write_eq (UnpackRegs.dst_in_space h.2 hr hc)

/-- One TenBitPacked group changes memory as the spec's group does, on any memory (R187). -/
theorem tenBitGroup_mem (h : p.AcceptsTenBit) (hr : r < p.height.toNat) (hg : g < p.width.toNat / 3) (t : Transfer) :
    ∃ t', tenBitGroup p r g t = some t' ∧ t'.mem = groupWrite p t.mem (r, g) := by
  refine ⟨_, tenBitGroup_eq h hr hg t, ?_⟩
  simp only [Memory.putLittleEndian_sample, UnpackRegs.groupSample_eq h.1 t.mem (show 0 < 3 by decide),
    UnpackRegs.groupSample_eq h.1 t.mem (show 1 < 3 by decide),
    UnpackRegs.groupSample_eq h.1 t.mem (show 2 < 3 by decide)]
  rfl

end

/-- Settles O51: the loop of each layout is the fold of its units. -/
theorem unpackIsAFoldInProgramOrder : Obligations.UnpackIsAFoldInProgramOrder := by
  intro s hv
  by_cases hl : s.up.layout = 2
  · have ha := unpackVerdict_interleaved hv hl
    obtain ⟨f, hf, hmem⟩ := frameLoop_eq_foldl (m := s.mem) (pairWrite s.up)
      fun r c t hr hc => ⟨_, interleavedPixel_eq ha hr hc t, rfl⟩
    rw [exec_unpack_of_frame (.inr ha) ((ha.unpackFrame_eq _).trans hf), hmem, if_pos hl]
  · have ha := ((unpackVerdict_eq_zero_iff _).1 hv).resolve_right fun h => hl h.1
    obtain ⟨f, hf, hmem⟩ := frameLoop_eq_foldl (m := s.mem) (groupWrite s.up)
      fun r g t hr hg => tenBitGroup_mem ha hr hg t
    rw [exec_unpack_of_frame (.inl ha) ((ha.unpackFrame_eq _).trans hf), hmem, if_neg hl]

end Sys2Proof.Machine
end

section
/-! PROOFS. Encoding (spec/30_encoding.md): decoder and encoder are inverse to each other on the legal words, which are
those that match a row of the opcode table (R93, R97); what an illegal word does (R96); the one response of every
command (R91, R234); registers by number (R95); and the assembler's `RDREG` and `SETLEVELS` (R100, R101). -/

namespace Sys2Proof

open Sys2Proof.Spec Sys2Proof.Machine

/-! ### Words from their fields -/

/-- A word whose `Z` is zero and whose other fields are known is the assembled one (R90). -/
theorem commandWord_eq {w : CommandWord} {op reg : BitVec 8} {imm : BitVec 32} (hop : w.op = op) (hreg : w.reg = reg)
    (hz : w.z = 0) (himm : w.imm = imm) : commandWord op reg imm = w := by
  subst hop hreg himm
  exact commandWord_of_fields w hz

/-- Where a mask has ones only, a field of a word that matches is the field of the match (R97). -/
theorem field_of_masked {w mask v : CommandWord} (h : w &&& mask = v) {start len : Nat}
    (hmask : mask.extractLsb' start len = BitVec.allOnes len) : w.extractLsb' start len = v.extractLsb' start len := by
  rw [← h, BitVec.extractLsb'_and, hmask, BitVec.and_allOnes]

@[simp] theorem indexImm_high (index : BitVec 8) : (0#24 ++ index : BitVec 32).extractLsb' 8 24 = 0 :=
  BitVec.extractLsb'_append_eq_left

@[simp] theorem indexImm_low (index : BitVec 8) : (0#24 ++ index : BitVec 32).extractLsb' 0 8 = index :=
  BitVec.extractLsb'_append_eq_right

/-- An `IMM` whose upper 24 bits are zero is its table index (R93). -/
theorem indexImm_of_high {imm : BitVec 32} (h : imm.extractLsb' 8 24 = 0) : 0#24 ++ imm.extractLsb' 0 8 = imm := by
  rw [show 0#24 = imm.extractLsb' 8 24 from h.symm]
  exact BitVec.extractLsb'_append_extractLsb'

/-- R96 in the fields of the word, each opcode with the test that the decoder makes for it. -/
theorem illegalWord_iff_fields (w : CommandWord) : IllegalWord w ↔
    (w.op ≠ 0x01 ∧ w.op ≠ 0x02 ∧ w.op ≠ 0x03 ∧ w.op ≠ 0x04 ∧ w.op ≠ 0x10 ∧ w.op ≠ 0x11) ∨
    (w.op = 0x01 ∧ ¬ w.z = 0) ∨ (w.op = 0x02 ∧ ¬ (w.z = 0 ∧ w.imm = 0)) ∨
    (w.op = 0x03 ∧ ¬ (w.reg = 0 ∧ w.z = 0 ∧ w.imm.extractLsb' 8 24 = 0)) ∨
    ((w.op = 0x04 ∨ w.op = 0x10 ∨ w.op = 0x11) ∧ ¬ (w.reg = 0 ∧ w.z = 0 ∧ w.imm = 0)) := by
  simp only [not_and_or]
  exact Iff.rfl

/-! ### The decoder and the encoder -/

/-- The decoder reads back every operand (R93, R94). -/
theorem decode_encode (i : Instr) : decode (encode i) = .instr i := by
  cases i with
  | wrreg reg imm => simp [encode, decode]
  | rdreg reg => simp [encode, decode]
  | rdlut index => simp [encode, decode]
  | lutbld => simp [encode, decode]
  | level => simp [encode, decode]
  | unpack => simp [encode, decode]

/-- Every word is either the word of the command it decodes to, or rejected and illegal by R96. -/
theorem decode_cases (w : CommandWord) :
    (∃ i, decode w = .instr i ∧ encode i = w) ∨ ∃ why, decode w = .rejected why ∧ IllegalWord w := by
  rw [illegalWord_iff_fields, decode]
  split_ifs with h1 hf h2 hf h3 hf h4 hf h5 hf h6 hf
  · exact .inl ⟨_, rfl, commandWord_eq h1 rfl hf rfl⟩
  · exact .inr ⟨_, rfl, .inr (.inl ⟨h1, hf⟩)⟩
  · obtain ⟨hz, himm⟩ := hf
    exact .inl ⟨_, rfl, commandWord_eq h2 rfl hz himm⟩
  · exact .inr ⟨_, rfl, .inr (.inr (.inl ⟨h2, hf⟩))⟩
  · obtain ⟨hreg, hz, hhigh⟩ := hf
    exact .inl ⟨_, rfl, commandWord_eq h3 hreg hz (indexImm_of_high hhigh).symm⟩
  · exact .inr ⟨_, rfl, .inr (.inr (.inr (.inl ⟨h3, hf⟩)))⟩
  · obtain ⟨hreg, hz, himm⟩ := hf
    exact .inl ⟨_, rfl, commandWord_eq h4 hreg hz himm⟩
  · exact .inr ⟨_, rfl, .inr (.inr (.inr (.inr ⟨.inl h4, hf⟩)))⟩
  · obtain ⟨hreg, hz, himm⟩ := hf
    exact .inl ⟨_, rfl, commandWord_eq h5 hreg hz himm⟩
  · exact .inr ⟨_, rfl, .inr (.inr (.inr (.inr ⟨.inr (.inl h5), hf⟩)))⟩
  · obtain ⟨hreg, hz, himm⟩ := hf
    exact .inl ⟨_, rfl, commandWord_eq h6 hreg hz himm⟩
  · exact .inr ⟨_, rfl, .inr (.inr (.inr (.inr ⟨.inr (.inr h6), hf⟩)))⟩
  · exact .inr ⟨_, rfl, .inl ⟨h1, h2, h3, h4, h5, h6⟩⟩

/-- A word that decodes has every must-be-zero field zero, so its other fields are all of it (R93, R99). -/
theorem encode_of_decode {w : CommandWord} {i : Instr} (h : decode w = .instr i) : encode i = w := by
  rcases decode_cases w with ⟨j, hj, hw⟩ | ⟨why, hwhy, -⟩
  · obtain rfl : j = i := Decoded.instr.inj (hj.symm.trans h)
    exact hw
  · exact absurd (h.symm.trans hwhy) nofun

/-- No command's word is illegal (R93, R96). -/
theorem not_illegalWord_encode (i : Instr) : ¬ IllegalWord (encode i) := by
  rw [illegalWord_iff_fields]
  cases i <;> simp [encode]

/-- The decoder rejects exactly the illegal words of R96. -/
theorem illegalWord_iff_rejected (w : CommandWord) : IllegalWord w ↔ ∃ why, decode w = .rejected why := by
  rcases decode_cases w with ⟨i, hi, rfl⟩ | ⟨why, hwhy, hw⟩
  · exact iff_of_false (not_illegalWord_encode i) fun ⟨why, h⟩ => absurd (hi.symm.trans h) nofun
  · exact iff_of_true hw ⟨why, hwhy⟩

/-- The legal words are the words that the encoder writes. -/
theorem illegalWord_iff_not_encoded (w : CommandWord) : IllegalWord w ↔ ¬ ∃ i, encode i = w := by
  refine ⟨?_, fun hnone => ?_⟩
  · rintro hw ⟨i, rfl⟩
    exact not_illegalWord_encode i hw
  · rcases decode_cases w with ⟨i, -, hi⟩ | ⟨-, -, hw⟩
    · exact absurd ⟨i, hi⟩ hnone
    · exact hw

/-- Settles O1 by `decode_encode`, command by command. -/
theorem decodeOfEncodeIsTheCommand : Obligations.DecodeOfEncodeIsTheCommand := decode_encode

/-- Settles O2 by `encode_of_decode`. -/
theorem encodeOfDecodeIsTheWord : Obligations.EncodeOfDecodeIsTheWord := fun _ _ => encode_of_decode

/-- Settles O4: seven closed words, decoded. -/
theorem wordsOfTheSpecDecode : Obligations.WordsOfTheSpecDecode := by
  unfold Obligations.WordsOfTheSpecDecode
  decide

/-! ### The opcode table -/

/-- Every command's row is in the opcode table (R97). -/
theorem opcodeRow_mem (i : Instr) : Laws.opcodeRow i ∈ opcodeRows := by
  cases i <;> simp [Laws.opcodeRow, opcodeRows]

/-- Every command's word matches its row of the opcode table (R97). -/
theorem encode_matches_opcodeRow (i : Instr) : encode i &&& (Laws.opcodeRow i).1 = (Laws.opcodeRow i).2 := by
  cases i with
  | wrreg reg imm => exact (Laws.TableRow.wrreg reg imm).1
  | rdreg reg => exact (Laws.TableRow.rdreg reg).1
  | rdlut index => exact (Laws.TableRow.rdlut index).1
  | lutbld => exact Laws.TableRow.lutbld.1
  | level => exact Laws.TableRow.level.1
  | unpack => exact Laws.TableRow.unpack.1

/-- A word that matches a row of the opcode table is some command's word (R93, R97). -/
theorem exists_encode_of_row {w : CommandWord} {row : BitVec 64 × BitVec 64} (hrow : row ∈ opcodeRows)
    (h : w &&& row.1 = row.2) : ∃ i, encode i = w := by
  simp only [opcodeRows, List.mem_cons, List.not_mem_nil, or_false] at hrow
  rcases hrow with rfl | rfl | rfl | rfl | rfl | rfl
  · have hop : w.op = 0x01 := field_of_masked h (by decide)
    have hz : w.z = 0 := field_of_masked h (by decide)
    exact ⟨.wrreg w.reg w.imm, commandWord_eq hop rfl hz rfl⟩
  · have hop : w.op = 0x02 := field_of_masked h (by decide)
    have hz : w.z = 0 := field_of_masked h (by decide)
    have himm : w.imm = 0 := field_of_masked h (by decide)
    exact ⟨.rdreg w.reg, commandWord_eq hop rfl hz himm⟩
  · have hop : w.op = 0x03 := field_of_masked h (by decide)
    have hreg : w.reg = 0 := field_of_masked h (by decide)
    have hz : w.z = 0 := field_of_masked h (by decide)
    have hhigh : w.imm.extractLsb' 8 24 = 0 :=
      (BitVec.extractLsb'_extractLsb'_of_le (by decide)).trans (field_of_masked h (by decide))
    exact ⟨.rdlut (w.imm.extractLsb' 0 8), commandWord_eq hop hreg hz (indexImm_of_high hhigh).symm⟩
  · exact ⟨.lutbld, (BitVec.and_allOnes.symm.trans h).symm⟩
  · exact ⟨.level, (BitVec.and_allOnes.symm.trans h).symm⟩
  · exact ⟨.unpack, (BitVec.and_allOnes.symm.trans h).symm⟩

/-- Settles O3: the words that match a row are the words that the encoder writes. -/
theorem rejectedWordsMatchNoTableRow : Obligations.RejectedWordsMatchNoTableRow := by
  intro w
  rw [← illegalWord_iff_rejected, illegalWord_iff_not_encoded]
  refine ⟨fun hnone row hrow h => hnone (exists_encode_of_row hrow h), ?_⟩
  rintro hrows ⟨i, rfl⟩
  exact hrows _ (opcodeRow_mem i) (encode_matches_opcodeRow i)

end Sys2Proof

namespace Sys2Proof.Machine

open Sys2Proof.Spec

/-! ### Illegal words -/

/-- A word that R96 calls illegal is answered with `ILLEGAL_COMMAND`, and that is all that happens. -/
theorem runCommand_of_illegalWord {w : CommandWord} (h : IllegalWord w) (s : State) :
    runCommand w s = .next (s.respond (CommandError.configuration .illegalCommand).response) := by
  obtain ⟨why, hwhy⟩ := (illegalWord_iff_rejected w).1 h
  rw [runCommand, hwhy]
  rfl

theorem runCommand_encode (i : Instr) (s : State) : runCommand (encode i) s = exec i s :=
  runCommand_of_decode (decode_encode i) s

/-- Settles O5: the decoder rejects the word, and the rejection is its whole effect. -/
theorem illegalWordIsAnsweredAndChangesNothing : Obligations.IllegalWordIsAnsweredAndChangesNothing := by
  refine ⟨fun s w rest hhost hw => ?_, by decide, by decide⟩
  rw [step_command hhost, runCommand_of_illegalWord hw]
  rfl

/-! ### Registers by number -/

theorem Reg.ofNumber_eq_none {n : BitVec 8} (h : ¬ NamesRegister n) : Reg.ofNumber n = none := by
  refine Option.eq_none_iff_forall_ne_some.2 fun r hr => h ?_
  rw [← Reg.number_of_ofNumber hr]
  exact r.namesRegister_number

/-- `WRREG` of a number that names no register (R95). -/
theorem execWrreg_unnamed {n : BitVec 8} (h : ¬ NamesRegister n) (v : Word32) (s : State) :
    execWrreg n v s = .next (s.respond (CommandError.configuration .unknownRegister).response) := by
  rw [execWrreg, Reg.ofNumber_eq_none h]
  rfl

/-- `RDREG` of a number that names no register (R95). -/
theorem execRdreg_unnamed {n : BitVec 8} (h : ¬ NamesRegister n) (s : State) :
    execRdreg n s = .next (s.respond (CommandError.configuration .unknownRegister).response) := by
  rw [execRdreg, Reg.ofNumber_eq_none h]
  rfl

/-- Settles O17: the register table is `NamesRegister`, and the lookup of any other number fails. -/
theorem unknownRegisterIsRefused : Obligations.UnknownRegisterIsRefused :=
  ⟨fun n => (namesRegister_iff n).symm, Reg.ofNumber_number,
    fun _ v s hn => ⟨execWrreg_unnamed hn v s, execRdreg_unnamed hn s⟩⟩

@[simp] theorem State.readReg_respond (s : State) (w : ResponseWord) (r : Reg) :
    (s.respond w).readReg r = s.readReg r := rfl

/-- Settles O21: neither the rebuild of the table nor the response touches the register just written. -/
theorem rdregReturnsTheWrittenOperand : Obligations.RdregReturnsTheWrittenOperand := by
  intro r v s hv
  rw [maxLegal_number] at hv
  refine ⟨_, execWrreg_ok r v s hv, ?_⟩
  rw [exec_rdreg, execRdreg_ok, okResponse_eq, State.readReg_respond, State.configure_readReg,
    State.readReg_writeReg_same s r v hv]
  rfl

/-! ### The response of every command -/

theorem responseOf_illegal {w : CommandWord} (h : IllegalWord w) (s : State) :
    responseOf s w = (CommandError.configuration .illegalCommand).response :=
  if_pos h

/-- R234 for a legal word, in its fields. -/
theorem responseOf_of_legal (s : State) {w : CommandWord} (h : ¬ IllegalWord w) : responseOf s w =
    if (w.op = 0x01 ∨ w.op = 0x02) ∧ ¬ NamesRegister w.reg then 0x0100000000000002
    else if w.op = 0x01 ∧ maxLegal w.reg < w.imm.toNat then 0x0100000000000003
    else if w.op = 0x10 then levelVerdict s.lv
    else if w.op = 0x11 then unpackVerdict s.up
    else if w.op = 0x02 then
      match Reg.ofNumber w.reg with
      | some r => 0#32 ++ s.readReg r
      | none => 0
    else if w.op = 0x03 then 0#56 ++ s.lut.read (w.extractLsb' 0 8)
    else 0 :=
  if_neg h

theorem responseOf_wrreg (n : BitVec 8) (v : Word32) (s : State) : responseOf s (encode (.wrreg n v)) =
    if ¬ NamesRegister n then 0x0100000000000002
    else if maxLegal n < v.toNat then 0x0100000000000003 else 0 := by
  rw [responseOf_of_legal s (not_illegalWord_encode _)]
  simp [encode]

theorem responseOf_rdreg_unnamed {n : BitVec 8} (h : ¬ NamesRegister n) (s : State) :
    responseOf s (encode (.rdreg n)) = 0x0100000000000002 := by
  rw [responseOf_of_legal s (not_illegalWord_encode _)]
  simp [encode, h]

theorem responseOf_rdreg (r : Reg) (s : State) :
    responseOf s (encode (.rdreg r.number)) = 0#32 ++ s.readReg r := by
  rw [responseOf_of_legal s (not_illegalWord_encode _)]
  simp [encode, r.namesRegister_number]

theorem encode_rdlut_index (index : BitVec 8) : (encode (.rdlut index)).extractLsb' 0 8 = index :=
  (BitVec.extractLsb'_append_eq_of_add_le (by decide)).trans (indexImm_low index)

theorem responseOf_rdlut (index : BitVec 8) (s : State) :
    responseOf s (encode (.rdlut index)) = 0#56 ++ s.lut.read index := by
  rw [responseOf_of_legal s (not_illegalWord_encode _), encode_rdlut_index]
  simp [encode]

theorem responseOf_lutbld (s : State) : responseOf s (encode .lutbld) = 0 := by
  rw [responseOf_of_legal s (not_illegalWord_encode _)]
  simp [encode]

theorem responseOf_level (s : State) : responseOf s (encode .level) = levelVerdict s.lv := by
  rw [responseOf_of_legal s (not_illegalWord_encode _)]
  simp [encode]

theorem responseOf_unpack (s : State) : responseOf s (encode .unpack) = unpackVerdict s.up := by
  rw [responseOf_of_legal s (not_illegalWord_encode _)]
  simp [encode]

/-- The datum of `RDLUT` is the entry zero-extended to the whole word (R91, R122). -/
theorem okResponse_byte (b : Byte) : okResponse (b.setWidth 32) = 0#56 ++ b := by
  have hlt : b.toNat < 2 ^ 32 := by omega
  rw [okResponse_eq]
  apply BitVec.eq_of_toNat_eq
  rw [BitVec.toNat_append, BitVec.toNat_append, BitVec.toNat_setWidth, Nat.mod_eq_of_lt hlt]
  rfl

/-- Every legal word is answered once, by the word that R234 gives. -/
theorem exec_answers (i : Instr) (s : State) :
    ∃ t, exec i s = .next t ∧ t.responses = s.responses ++ [responseOf s (encode i)] := by
  cases i with
  | wrreg n v =>
    rw [exec_wrreg, responseOf_wrreg]
    by_cases hn : NamesRegister n
    · obtain ⟨r, rfl⟩ := (namesRegister_iff n).1 hn
      rw [if_neg (not_not_intro hn), maxLegal_number]
      rcases Nat.lt_or_ge r.maxLegal v.toNat with hv | hv
      · exact ⟨_, execWrreg_outOfRange s hv, by rw [if_pos hv]; rfl⟩
      · exact ⟨_, execWrreg_ok r v s hv, by simp [Nat.not_lt.2 hv]⟩
    · exact ⟨_, execWrreg_unnamed hn v s, by rw [if_pos hn]; rfl⟩
  | rdreg n =>
    rw [exec_rdreg]
    by_cases hn : NamesRegister n
    · obtain ⟨r, rfl⟩ := (namesRegister_iff n).1 hn
      exact ⟨_, execRdreg_ok r s, by rw [responseOf_rdreg, ← okResponse_eq]; rfl⟩
    · exact ⟨_, execRdreg_unnamed hn s, by rw [responseOf_rdreg_unnamed hn]; rfl⟩
  | rdlut index => exact ⟨_, exec_rdlut index s, by rw [responseOf_rdlut, okResponse_byte]; rfl⟩
  | lutbld => exact ⟨_, exec_lutbld s, by rw [responseOf_lutbld]; rfl⟩
  | level =>
    rw [exec_level, responseOf_level, levelVerdict_eq]
    rcases execLevel_cases s with ⟨e, hcheck, h⟩ | ⟨haccepts, f, -, -, h⟩
    · exact ⟨_, h, by rw [hcheck]; rfl⟩
    · exact ⟨_, h, by rw [(levelCheck_none _).2 haccepts]; rfl⟩
  | unpack =>
    rw [exec_unpack, responseOf_unpack, unpackVerdict_eq]
    rcases execUnpack_cases s with ⟨e, hcheck, h⟩ | ⟨haccepts, f, -, -, h⟩
    · exact ⟨_, h, by rw [hcheck]; rfl⟩
    · exact ⟨_, h, by rw [(unpackCheck_none _).2 haccepts]; rfl⟩

/-- Every word, legal or not, is answered once (R68, R234). -/
theorem runCommand_answers (w : CommandWord) (s : State) :
    ∃ t, runCommand w s = .next t ∧ t.responses = s.responses ++ [responseOf s w] := by
  rcases decode_cases w with ⟨i, hi, rfl⟩ | ⟨-, -, hw⟩
  · rw [runCommand_encode]
    exact exec_answers i s
  · exact ⟨_, runCommand_of_illegalWord hw s, by rw [responseOf_illegal hw]; rfl⟩

/-! ### The format of a response -/

/-- A response of the format `P` of R91, with a status of R231 and a detail code of R232 or R233. -/
def WellFormedResponse (p : ResponseWord) : Prop :=
  p.extractLsb' 32 24 = 0 ∧
    (p.extractLsb' 56 8 = 0x00 ∨
      (p.extractLsb' 56 8 = 0x01 ∧ 1 ≤ (p.extractLsb' 0 32).toNat ∧ (p.extractLsb' 0 32).toNat ≤ 9) ∨
      (p.extractLsb' 56 8 = 0x02 ∧ 1 ≤ (p.extractLsb' 0 32).toNat ∧ (p.extractLsb' 0 32).toNat ≤ 2))

theorem okResponse_wellFormed (data : BitVec 32) : WellFormedResponse (okResponse data) :=
  ⟨(BitVec.extractLsb'_append_eq_of_le (by decide)).trans BitVec.extractLsb'_append_eq_right,
    .inl ((BitVec.extractLsb'_append_eq_of_le (by decide)).trans BitVec.extractLsb'_append_eq_left)⟩

/-- Every status and detail code of R231 to R233 is in its range. -/
theorem CommandError.response_wellFormed (e : CommandError) : WellFormedResponse e.response := by
  rcases e with c | c <;> cases c <;> unfold WellFormedResponse <;> decide

theorem verdictOf_wellFormed (e : Option CommandError) : WellFormedResponse (verdictOf e) := by
  cases e with
  | none => exact okResponse_wellFormed 0
  | some e => exact e.response_wellFormed

theorem responseOf_wellFormed (s : State) (w : CommandWord) : WellFormedResponse (responseOf s w) := by
  rcases decode_cases w with ⟨i, -, rfl⟩ | ⟨-, -, hw⟩
  · cases i with
    | wrreg n v =>
      rw [responseOf_wrreg]
      split_ifs
      · exact CommandError.response_wellFormed (.configuration .operandRange)
      · exact okResponse_wellFormed 0
      · exact CommandError.response_wellFormed (.configuration .unknownRegister)
    | rdreg n =>
      by_cases hn : NamesRegister n
      · obtain ⟨r, rfl⟩ := (namesRegister_iff n).1 hn
        rw [responseOf_rdreg, ← okResponse_eq]
        exact okResponse_wellFormed _
      · rw [responseOf_rdreg_unnamed hn]
        exact CommandError.response_wellFormed (.configuration .unknownRegister)
    | rdlut index =>
      rw [responseOf_rdlut, ← okResponse_byte]
      exact okResponse_wellFormed _
    | lutbld =>
      rw [responseOf_lutbld]
      exact okResponse_wellFormed 0
    | level =>
      rw [responseOf_level, levelVerdict_eq]
      exact verdictOf_wellFormed _
    | unpack =>
      rw [responseOf_unpack, unpackVerdict_eq]
      exact verdictOf_wellFormed _
  · rw [responseOf_illegal hw]
    exact CommandError.response_wellFormed _

/-- Settles O13: the response comes from the command's outcome, its format from the rule alone. -/
theorem everyCommandGivesItsResponse : Obligations.EveryCommandGivesItsResponse := by
  intro s w rest hhost
  rw [step_command hhost]
  exact ⟨runCommand_answers w { s with host := rest }, responseOf_wellFormed s w⟩

/-! ### `SETLEVELS` -/

/-- A step that issues a legal `WRREG` (R120, R123). -/
theorem step_wrreg {s : State} {r : Reg} {v : Word32} {rest : List HostAction}
    (hhost : s.host = .command (encode (.wrreg r.number v)) :: rest) (hv : v.toNat ≤ r.maxLegal) :
    ∃ t, step s = .next t ∧ t.host = rest ∧ t.responses = s.responses ++ [0] ∧ t.readReg r = v ∧
      (∀ r', r' ≠ r → t.readReg r' = s.readReg r') ∧ (r.rebuildsTable = true → t.lut = t.lv.table) := by
  rw [step_command hhost, runCommand_encode]
  refine ⟨_, execWrreg_ok r v _ hv, ?_, ?_, ?_, fun r' hr' => ?_, fun hr => ?_⟩
  · simp
  · simp
  · rw [State.readReg_respond, State.configure_readReg, State.readReg_writeReg_same _ r v hv]
  · rw [State.readReg_respond, State.configure_readReg, State.readReg_writeReg_other _ r r' v hr']
    rfl
  · rw [State.respond_lut, State.configure_lut, if_pos hr, State.respond_lv, State.configure_lv]

/-- A run that begins with a step to a next state is the rest of the run from there. -/
theorem run_succ_of_step {s t : State} (h : step s = .next t) (k : Nat) :
    Host.Core.run core (k + 1) s = Host.Core.run core k t := by
  have hcore : core.step s = .next t := h
  simp only [Host.Core.run, hcore]

/-- Settles O24: each write leaves the parameters of the earlier ones, and the last rebuilds the table from all four. -/
theorem setLevelsBuildsTheTable : Obligations.SetLevelsBuildsTheTable := by
  intro s li hi lo ho rest hli hhi hlo hho hhost
  obtain ⟨t₁, h₁, hhost₁, hresp₁, hli₁, -, -⟩ := step_wrreg (r := .lvLowIn) hhost hli
  obtain ⟨t₂, h₂, hhost₂, hresp₂, hhi₂, hkept₂, -⟩ := step_wrreg (r := .lvHighIn) hhost₁ hhi
  obtain ⟨t₃, h₃, hhost₃, hresp₃, hlo₃, hkept₃, -⟩ := step_wrreg (r := .lvLowOut) hhost₂ hlo
  obtain ⟨t₄, h₄, hhost₄, hresp₄, hho₄, hkept₄, hlut₄⟩ := step_wrreg (r := .lvHighOut) hhost₃ hho
  refine ⟨t₄, ?_, ?_, ?_, hhost₄⟩
  · rw [run_succ_of_step h₁, run_succ_of_step h₂, run_succ_of_step h₃, run_succ_of_step h₄]
    rfl
  · have hli₄ : t₄.readReg .lvLowIn = li := by
      rw [hkept₄ _ (by decide), hkept₃ _ (by decide), hkept₂ _ (by decide), hli₁]
    have hhi₄ : t₄.readReg .lvHighIn = hi := by rw [hkept₄ _ (by decide), hkept₃ _ (by decide), hhi₂]
    have hlo₄ : t₄.readReg .lvLowOut = lo := by rw [hkept₄ _ (by decide), hlo₃]
    rw [hlut₄ rfl, LevelRegs.table_eq, hli₄, hhi₄, hlo₄, hho₄]
  · simp [hresp₄, hresp₃, hresp₂, hresp₁]

/-! ### The assembler -/

/-- Text that stands for one operand as it is: not empty, no blank, no comma and no `#` in it (R100). -/
def IsOperandText (t : Text) : Prop := t ≠ [] ∧ ∀ c ∈ t, isBlank c = false ∧ c ≠ '#' ∧ c ≠ ','

section
variable {t : Text}

theorem IsOperandText.reverse (h : IsOperandText t) : IsOperandText t.reverse :=
  ⟨List.reverse_ne_nil_iff.2 h.1, fun c hc => h.2 c (List.mem_reverse.1 hc)⟩

theorem IsOperandText.dropWhile_isBlank_append (h : IsOperandText t) (u : Text) :
    (t ++ u).dropWhile isBlank = t ++ u := by
  obtain ⟨hne, hc⟩ := h
  cases t with
  | nil => exact absurd rfl hne
  | cons c t => exact List.dropWhile_cons_of_neg (by simp [(hc c (List.mem_cons_self ..)).1])

theorem IsOperandText.dropWhile_isBlank (h : IsOperandText t) : t.dropWhile isBlank = t := by
  simpa only [List.append_nil] using h.dropWhile_isBlank_append []

/-- `trim` takes blanks before an operand away, and nothing behind it. -/
theorem IsOperandText.trim_append (h : IsOperandText t) (u : Text) :
    trim (u ++ t) = (u ++ t).dropWhile isBlank := by
  obtain ⟨v, hv⟩ : ∃ v, (u ++ t).dropWhile isBlank = v ++ t := by
    induction u with
    | nil => exact ⟨[], h.dropWhile_isBlank⟩
    | cons c u ih =>
      rw [List.cons_append, List.dropWhile_cons]
      split
      · exact ih
      · exact ⟨c :: u, rfl⟩
  rw [trim, hv, List.reverse_append, h.reverse.dropWhile_isBlank_append, ← List.reverse_append, List.reverse_reverse]

/-- A text without commas is one operand. -/
theorem splitAtEach_eq_singleton {sep : Char} (h : ∀ c ∈ t, c ≠ sep) : splitAtEach sep t = [t] := by
  induction t with
  | nil => rfl
  | cons c t ih =>
    rw [List.forall_mem_cons] at h
    rw [splitAtEach, ih h.2, if_neg (by simpa using h.1)]

/-- A line of the mnemonic `RDREG` and one operand (R100). -/
theorem IsOperandText.assembleLine_rdreg (h : IsOperandText t) :
    assembleLine ("RDREG ".toList ++ t) = assembleForm "RDREG".toList [t] := by
  have hcode : ("RDREG ".toList ++ t).takeWhile (fun c => c != '#') = "RDREG ".toList ++ t := by
    rw [List.takeWhile_append_of_pos (by simp), List.takeWhile_eq_self_iff.2]
    exact fun c hc => by simpa using (h.2 c hc).2.1
  have htrim : trim ("RDREG ".toList ++ t) = "RDREG ".toList ++ t := h.trim_append _
  have hmnemonic : ("RDREG ".toList ++ t).takeWhile (fun c => !isBlank c) = "RDREG".toList := rfl
  have hrest : trim (("RDREG ".toList ++ t).dropWhile fun c => !isBlank c) = t :=
    (h.trim_append [' ']).trans h.dropWhile_isBlank
  have hoperand : trim t = t := (h.trim_append []).trans h.dropWhile_isBlank
  have hsplit : splitAtEach ',' t = [t] := splitAtEach_eq_singleton fun c hc => (h.2 c hc).2.2
  simp only [assembleLine, hcode, htrim, hmnemonic, hrest, hsplit]
  rw [if_neg (by simp), if_neg h.1, List.map_singleton, hoperand]

end

theorem Reg.name_isOperandText (r : Reg) : IsOperandText r.name.toList := by
  cases r <;> simp [IsOperandText, Reg.name, isBlank]

theorem registerNamed_name (r : Reg) : registerNamed r.name.toList = some r := by
  cases r <;> decide

theorem assembleForm_rdreg (r : Reg) : assembleForm "RDREG".toList [r.name.toList] = some [.rdreg r.number] := by
  rw [assembleForm, if_neg (by decide), if_pos rfl]
  simp only [registerNamed_name, Option.map_some]

/-- The word of `RDREG` as R93 writes it: the opcode in the top byte, the register number in the next. -/
theorem encode_rdreg_eq_or (n : BitVec 8) : encode (.rdreg n) = 0x0200000000000000 ||| (n.setWidth 64 <<< 48) := by
  have hn : n.toNat % 2 ^ 64 = n.toNat := Nat.mod_eq_of_lt (by omega)
  have hshift : n.toNat <<< 48 % 2 ^ 64 = n.toNat <<< 48 := Nat.mod_eq_of_lt (by rw [Nat.shiftLeft_eq]; omega)
  apply BitVec.eq_of_toNat_eq
  rw [BitVec.toNat_or, BitVec.toNat_shiftLeft, BitVec.toNat_setWidth, hn, hshift]
  simp only [encode, commandWord, BitVec.toNat_append]
  simp [Nat.shiftLeft_or_distrib, ← Nat.shiftLeft_add]

/-- Settles O25: the line is one operand, the name finds its register, and the word is that of R93. -/
theorem assemblerKnowsEveryRegisterName : Obligations.AssemblerKnowsEveryRegisterName := by
  intro r
  rw [assemble, r.name_isOperandText.assembleLine_rdreg, assembleForm_rdreg, ← encode_rdreg_eq_or]
  rfl

end Sys2Proof.Machine
end

section
/-! PROOFS. Configuration commands (spec/40_config_commands.md): what an accepted and a refused `WRREG` leave in the
registers and in the table (R120, R123, R124), and the answer of `RDLUT` (R122). -/

namespace Sys2Proof.Machine

open Sys2Proof.Spec

/-! ### `WRREG` -/

/-- The level parameters are the registers of numbers `0x00` to `0x03` (R123). -/
theorem Reg.rebuildsTable_iff_number (r : Reg) : r.rebuildsTable = true ↔ r.number.toNat ≤ 0x03 := by
  cases r <;> decide

/-- The table after an accepted write, by the register's number and in the values the registers then read
(R123, R124). -/
theorem State.configure_lut_eq_buildLut (s : State) (r : Reg) (v : Word32) :
    (s.configure r v).lut =
      if r.number.toNat ≤ 0x03 then
        buildLut ((s.configure r v).readReg .lvLowIn).toNat ((s.configure r v).readReg .lvHighIn).toNat
          ((s.configure r v).readReg .lvLowOut).toNat ((s.configure r v).readReg .lvHighOut).toNat
      else s.lut := by
  simp only [State.configure_lut, Reg.rebuildsTable_iff_number, ← LevelRegs.table_eq, State.configure_lv]

/-- A number that names no register, or an operand above `maxlegal`, leaves a `WRREG` its response alone (R95, R120). -/
theorem execWrreg_refused {n : BitVec 8} {v : Word32} (s : State) (h : ¬ NamesRegister n ∨ maxLegal n < v.toNat) :
    ∃ e : CommandError, execWrreg n v s = .next (s.respond e.response) := by
  rcases execWrreg_cases n v s with hrefused | ⟨r, hr, hv, -⟩
  · exact hrefused
  · obtain rfl := Reg.number_of_ofNumber hr
    rw [maxLegal_number] at h
    exact absurd h (not_or.2 ⟨not_not_intro r.namesRegister_number, Nat.not_lt.2 hv⟩)

/-- Settles O19: an accepted `WRREG` is `configure` and a response, neither of which touches another register; a
refused one is a response alone. -/
theorem wrregWritesRegisterAndRebuildsTable : Obligations.WrregWritesRegisterAndRebuildsTable := by
  refine ⟨fun r v s hv => ?_, fun n v s h => ?_⟩
  · rw [maxLegal_number] at hv
    refine ⟨_, execWrreg_ok r v s hv, ?_, fun r' hr' => ?_, s.configure_lut_eq_buildLut r v, ?_, ?_, ?_⟩
    · rw [State.readReg_respond, State.configure_readReg, State.readReg_writeReg_same s r v hv]
    · rw [State.readReg_respond, State.configure_readReg, State.readReg_writeReg_other s r r' v hr']
    · rw [State.respond_mem, State.configure_mem]
    · rw [State.respond_host, State.configure_host]
    · rw [State.respond_responses, State.configure_responses]
  · obtain ⟨e, he⟩ := execWrreg_refused s h
    exact ⟨_, he, s.respond_lut _, s.readReg_respond _⟩

/-! ### `RDLUT` -/

/-- Settles O22: the datum of the OK response is the entry, and the response is the command's whole effect. -/
theorem rdlutAnswersTheEntry : Obligations.RdlutAnswersTheEntry := by
  intro i s
  rw [exec_rdlut, okResponse_byte, answered_eq_respond]

end Sys2Proof.Machine
end

section
/-! PROOFS. The level table (spec/41_level_lut.md): the level byte (R140), the clauses of `BuildLUT` (R143, R144), the
range of its entries (R146), its named tables (R149) and its monotonicity (R150). -/

namespace Sys2Proof.Machine

/-! ### The level byte -/

theorem byte255_zero : byte255 0 = 0 := by decide

theorem byte255_full : byte255 65536 = 255 := by decide

/-- Settles O26: the shift is a division, which keeps the order. -/
theorem levelByteFollowsItsRule : Obligations.LevelByteFollowsItsRule :=
  ⟨fun k hk => ⟨byte255_eq k, byte255_le hk, by omega⟩, fun _ _ => byte255_mono, byte255_zero, byte255_full, by decide⟩

/-! ### The range of the entries -/

/-- An index past `loIn` in the ramp is below `255 * (b - a) / 65536` (R146). -/
theorem ramp_index_lt {a b i : Nat} (h : i < byte255 b) :
    ((i : Int) - byte255 a) * 65536 < 255 * ((b : Int) - a) := by
  rw [byte255_eq] at h ⊢
  omega

/-- The ramp's rise, added to the lower level byte, stays at or below the higher one (R146). -/
theorem byte255_add_ramp_le {a b p q i : Nat} (h1 : byte255 a ≤ i) (h2 : i < byte255 b) (hpq : p ≤ q) :
    byte255 p + (i - byte255 a) * (q - p) / (b - a) ≤ byte255 q := by
  have hrise : (i - byte255 a) * (q - p) / (b - a) * 65536 ≤ 255 * (q - p) :=
    ramp_bound (lt_of_byte255_lt (Nat.lt_of_le_of_lt h1 h2)) (by omega)
  rw [byte255_eq p, byte255_eq q]
  omega

theorem lutEntryExact_ramp_rising {a b p q i : Nat} (h1 : byte255 a ≤ i) (h2 : i < byte255 b) (hpq : p ≤ q) :
    lutEntryExact a b p q i = (byte255 p + (i - byte255 a) * (q - p) / (b - a) : Nat) := by
  rw [lutEntryExact_ramp h1 h2, if_pos hpq, Nat.cast_add]

theorem lutEntryExact_ramp_falling {a b p q i : Nat} (h1 : byte255 a ≤ i) (h2 : i < byte255 b) (hqp : q < p) :
    lutEntryExact a b p q i = (byte255 p : Int) - ((i - byte255 a) * (p - q) / (b - a) : Nat) := by
  rw [lutEntryExact_ramp h1 h2, if_neg (Nat.not_le.2 hqp)]

/-- The clause an index falls under, the first that applies (R143, R144). -/
theorem table_clause (a b i : Nat) :
    i < byte255 a ∨ (byte255 a ≤ i ∧ i < byte255 b) ∨ (byte255 a ≤ i ∧ byte255 b ≤ i) := by
  omega

/-- Under every clause a table of rising levels stays between them (R146). -/
theorem lutEntryExact_between_rising (a b i : Nat) {p q : Nat} (hpq : p ≤ q) :
    (byte255 p : Int) ≤ lutEntryExact a b p q i ∧ lutEntryExact a b p q i ≤ byte255 q := by
  have hlevels := byte255_mono hpq
  rcases table_clause a b i with hlow | ⟨h1, h2⟩ | ⟨h1, h2⟩
  · rw [lutEntryExact_low hlow]
    omega
  · rw [lutEntryExact_ramp_rising h1 h2 hpq]
    exact ⟨Int.ofNat_le.2 (Nat.le_add_right _ _), Int.ofNat_le.2 (byte255_add_ramp_le h1 h2 hpq)⟩
  · rw [lutEntryExact_high h1 h2]
    omega

/-- Under every clause a table of falling levels stays between them (R146). -/
theorem lutEntryExact_between_falling (a b i : Nat) {p q : Nat} (hqp : q < p) :
    (byte255 q : Int) ≤ lutEntryExact a b p q i ∧ lutEntryExact a b p q i ≤ byte255 p := by
  have hlevels := byte255_mono hqp.le
  rcases table_clause a b i with hlow | ⟨h1, h2⟩ | ⟨h1, h2⟩
  · rw [lutEntryExact_low hlow]
    omega
  · rw [lutEntryExact_ramp_falling h1 h2 hqp]
    have hfall := byte255_add_ramp_le h1 h2 hqp.le
    generalize (i - byte255 a) * (p - q) / (b - a) = fall at *
    omega
  · rw [lutEntryExact_high h1 h2]
    omega

section
variable {p q : Nat} (hp : p ≤ 65536) (hq : q ≤ 65536)
include hp hq

/-- Legal output levels make entries of 8 bits, since each lies between two level bytes (R146). -/
theorem lutEntryExact_mem_byte (a b i : Nat) : 0 ≤ lutEntryExact a b p q i ∧ lutEntryExact a b p q i ≤ 255 := by
  have hp' := byte255_le hp
  have hq' := byte255_le hq
  rcases Nat.lt_or_ge q p with hqp | hpq
  · have := lutEntryExact_between_falling a b i hqp
    omega
  · have := lutEntryExact_between_rising a b i hpq
    omega

/-- The byte stored is the exact entry, which neither wraps nor is clamped (R146). -/
theorem buildLut_read_exact (a b : Nat) (i : Byte) :
    (((buildLut a b p q).read i).toNat : Int) = lutEntryExact a b p q i.toNat := by
  obtain ⟨h0, h255⟩ := lutEntryExact_mem_byte hp hq a b i.toNat
  rw [buildLut_read, lutEntry, BitVec.toNat_ofInt, Int.emod_eq_of_lt h0 (by norm_num; omega), Int.toNat_of_nonneg h0]

/-- Without a ramp between `loIn` and `hiIn` the table is a step at `loIn` (R142, R144). -/
theorem buildLut_read_step {a b : Nat} (hba : byte255 b ≤ byte255 a) (i : Byte) :
    ((buildLut a b p q).read i).toNat = if i.toNat < byte255 a then byte255 p else byte255 q := by
  apply Int.ofNat_inj.1
  rw [buildLut_read_exact hp hq]
  split
  case isTrue hlow => exact lutEntryExact_low hlow
  case isFalse hstep => exact lutEntryExact_high (by omega) (by omega)

end

/-- Settles O28: the range of all entries, and the ramp's bounds in both orders of the output levels. -/
theorem tableEntriesStayInRange : Obligations.TableEntriesStayInRange := by
  intro a b p q i _ _ hp hq hi
  obtain ⟨h0, h255⟩ := lutEntryExact_mem_byte hp hq a b i
  have hindex : (BitVec.ofNat 8 i).toNat = i := Nat.mod_eq_of_lt (by omega)
  refine ⟨h0, h255, ?_, fun _ h2 => ramp_index_lt h2, fun _ _ => lutEntryExact_between_rising a b i,
    fun _ _ => lutEntryExact_between_falling a b i⟩
  rw [buildLut_read_exact hp hq, hindex]

/-! ### The clauses -/

/-- The ramp's product has an index difference of at most 254 and a level difference of at most 65536 (R143). -/
theorem abs_ramp_product_le {a b p q i : Nat} (hb : b ≤ 65536) (hp : p ≤ 65536) (hq : q ≤ 65536)
    (h1 : byte255 a ≤ i) (h2 : i < byte255 b) :
    |((i : Int) - byte255 a) * ((q : Int) - p)| ≤ 254 * 65536 := by
  have hhi := byte255_le hb
  have hindex : |(i : Int) - byte255 a| ≤ 254 := abs_le.2 (by omega)
  have hlevels : |(q : Int) - p| ≤ 65536 := abs_le.2 (by omega)
  rw [abs_mul]
  exact mul_le_mul hindex hlevels (abs_nonneg _) (by norm_num)

/-- Settles O27: the stored byte is the exact entry, whose definition is the chain of clauses. -/
theorem tableEntryFollowsTheClauses : Obligations.TableEntryFollowsTheClauses := by
  intro a b p q i _ hb hp hq
  simp only [← byte255_eq]
  refine ⟨buildLut_read_exact hp hq a b i, fun h1 h2 => ?_⟩
  obtain ⟨hlower, hupper⟩ := abs_le.1 (abs_ramp_product_le hb hp hq h1 h2)
  exact ⟨lt_of_byte255_lt (Nat.lt_of_le_of_lt h1 h2), hupper, hlower⟩

/-- Settles O29: an inverted range leaves the ramp no index, and one that is not inverted orders the clauses. -/
theorem invertedInputRangeIsAStep : Obligations.InvertedInputRangeIsAStep := by
  intro a b p q i _ _ hp hq
  refine ⟨fun hinv => buildLut_read_step hp hq hinv.le i, fun hle => ?_⟩
  rcases table_clause a b i.toNat with hlow | ⟨h1, h2⟩ | ⟨h1, h2⟩
  · exact .inl ⟨hlow, by omega, by omega⟩
  · exact .inr (.inl ⟨by omega, ⟨h1, h2⟩, by omega⟩)
  · exact .inr (.inr ⟨by omega, by omega, h2⟩)

/-! ### The named tables -/

/-- Over the whole input and output range the ramp has slope 1 and ends below index 255 (R149). -/
theorem lutEntryExact_identity {i : Nat} (hi : i ≤ 255) : lutEntryExact 0 65536 0 65536 i = i := by
  rcases Nat.lt_or_ge i (byte255 65536) with hramp | hhigh
  · rw [lutEntryExact_ramp_rising (byte255_zero.trans_le i.zero_le) hramp (by norm_num), byte255_zero]
    simp
  · rw [lutEntryExact_high (byte255_zero.trans_le i.zero_le) hhigh, byte255_full]
    rw [byte255_full] at hhigh
    omega

/-- The identity table (R149). -/
theorem buildLut_read_identity (i : Byte) : (buildLut 0 65536 0 65536).read i = i := by
  apply BitVec.eq_of_toNat_eq
  apply Int.ofNat_inj.1
  rw [buildLut_read_exact (by norm_num) le_rfl]
  exact lutEntryExact_identity (Nat.le_of_lt_succ i.isLt)

/-- A step is flat only if its two levels are one or if it is at index 0, where it has no lower side (R149). -/
theorem buildLut_step_flat_iff {a b p q : Nat} (ha : a ≤ 65536) (hp : p ≤ 65536) (hq : q ≤ 65536)
    (hba : byte255 b ≤ byte255 a) :
    (∀ i j : Byte, (buildLut a b p q).read i = (buildLut a b p q).read j) ↔
      (byte255 q = byte255 p ∨ byte255 a = 0) := by
  have hstep := buildLut_read_step hp hq hba
  constructor
  · intro hflat
    rw [or_iff_not_imp_right]
    intro ha0
    have hfirst : (0 : Byte).toNat < byte255 a := Nat.pos_of_ne_zero ha0
    have hlast : ¬ (255 : Byte).toNat < byte255 a := Nat.not_lt.2 (byte255_le ha)
    have hends := congrArg BitVec.toNat (hflat 255 0)
    rwa [hstep, hstep, if_neg hlast, if_pos hfirst] at hends
  · intro h
    have hconst (i : Byte) : ((buildLut a b p q).read i).toNat = byte255 q := by
      rw [hstep]
      split <;> omega
    exact fun i j => BitVec.eq_of_toNat_eq ((hconst i).trans (hconst j).symm)

/-- Settles O30: the reset table, the identity, and the step that a degenerate input range leaves. -/
theorem zeroIdentityAndDegenerateTables : Obligations.ZeroIdentityAndDegenerateTables :=
  ⟨fun i => (buildLut_read 0 0 0 0 i).trans (lutEntry_zero i.toNat), buildLut_read_identity,
    fun _ _ _ _ ha _ hp hq hab => ⟨buildLut_read_step hp hq hab.ge, buildLut_step_flat_iff ha hp hq hab.ge⟩⟩

/-! ### Monotonicity -/

/-- The ramp's rise grows with the index. -/
theorem ramp_mono (a w d : Nat) {i j : Nat} (hij : i ≤ j) :
    (i - byte255 a) * w / d ≤ (j - byte255 a) * w / d :=
  Nat.div_le_div_right (Nat.mul_le_mul_right _ (Nat.sub_le_sub_right hij _))

/-- Rising levels: the first clause gives the least entry and the last the greatest, with the ramp rising between them
(R150). An inverted input range leaves the ramp out and changes nothing else. -/
theorem lutEntryExact_mono (a b : Nat) {p q i j : Nat} (hij : i ≤ j) (hpq : p ≤ q) :
    lutEntryExact a b p q i ≤ lutEntryExact a b p q j := by
  rcases table_clause a b i with hlow | ⟨h1, h2⟩ | ⟨h1, h2⟩
  · rw [lutEntryExact_low hlow]
    exact (lutEntryExact_between_rising a b j hpq).1
  · rcases Nat.lt_or_ge j (byte255 b) with hj | hj
    · rw [lutEntryExact_ramp_rising h1 h2 hpq, lutEntryExact_ramp_rising (h1.trans hij) hj hpq]
      exact Int.ofNat_le.2 (Nat.add_le_add_left (ramp_mono a _ _ hij) _)
    · rw [lutEntryExact_high (h1.trans hij) hj]
      exact (lutEntryExact_between_rising a b i hpq).2
  · rw [lutEntryExact_high h1 h2, lutEntryExact_high (h1.trans hij) (h2.trans hij)]

/-- Falling levels: the first clause gives the greatest entry and the last the least, with the ramp falling between
them (R150). -/
theorem lutEntryExact_antitone (a b : Nat) {p q i j : Nat} (hij : i ≤ j) (hqp : q < p) :
    lutEntryExact a b p q j ≤ lutEntryExact a b p q i := by
  rcases table_clause a b i with hlow | ⟨h1, h2⟩ | ⟨h1, h2⟩
  · rw [lutEntryExact_low hlow]
    exact (lutEntryExact_between_falling a b j hqp).2
  · rcases Nat.lt_or_ge j (byte255 b) with hj | hj
    · rw [lutEntryExact_ramp_falling h1 h2 hqp, lutEntryExact_ramp_falling (h1.trans hij) hj hqp]
      exact Int.sub_le_sub_left (Int.ofNat_le.2 (ramp_mono a _ _ hij)) _
    · rw [lutEntryExact_high (h1.trans hij) hj]
      exact (lutEntryExact_between_falling a b i hqp).1
  · rw [lutEntryExact_high h1 h2, lutEntryExact_high (h1.trans hij) (h2.trans hij)]

/-- Settles O31: the stored bytes are the exact entries, which are monotone in either order of the levels. -/
theorem tableIsMonotone : Obligations.TableIsMonotone := by
  intro a b p q i j _ _ hp hq _ hij
  have hi := buildLut_read_exact hp hq a b i
  have hj := buildLut_read_exact hp hq a b j
  refine ⟨fun hpq => ?_, fun hqp => ?_⟩
  · have hmono := lutEntryExact_mono a b hij hpq
    omega
  · have hanti := lutEntryExact_antitone a b hij hqp
    omega

end Sys2Proof.Machine
end

section
/-! PROOFS. The level transform (spec/42_level_transform.md): the order of its six tests (R161), and the frames without a
pixel (R165). -/

namespace Sys2Proof.Machine

open Sys2Proof.Spec

/-- Settles O40: the verdict is the outcome of the model's validation, which alone decides how `LEVEL` ends. -/
theorem levelValidationFollowsItsOrder : Obligations.LevelValidationFollowsItsOrder := by
  intro s
  rw [levelVerdict_eq, exec_level]
  rcases execLevel_cases s with ⟨e, hfails, hends⟩ | ⟨haccepts, f, -, -, hends⟩
  · rw [hfails]
    exact ⟨fun _ => hends, fun hok => nomatch verdictOf_eq_zero_iff.1 hok⟩
  · rw [(levelCheck_none _).2 haccepts]
    exact ⟨fun herror => absurd rfl herror, fun _ => ⟨_, hends, rfl⟩⟩

/-- A frame has no unit exactly when it has no row or no column (R63). -/
theorem rowMajor_eq_nil_iff {rows cols : Nat} : rowMajor rows cols = [] ↔ rows = 0 ∨ cols = 0 := by
  rw [← List.length_eq_zero_iff]
  simp [rowMajor]

/-- An accepted frame without a pixel is a fold over nothing (R165). -/
theorem exec_level_of_empty {s : State} (hv : levelVerdict s.lv = 0) (hempty : s.lv.width = 0 ∨ s.lv.height = 0) :
    exec .level s = .next (answered s 0) := by
  have hnil : rowMajor s.lv.height.toNat s.lv.width.toNat = [] :=
    rowMajor_eq_nil_iff.2 (hempty.symm.imp (congrArg BitVec.toNat) (congrArg BitVec.toNat))
  rw [levelIsAFoldInProgramOrder s hv, hnil]
  rfl

/-- Settles O45: the reset state's frame is accepted and has neither rows nor columns. -/
theorem levelOfAnEmptyFrameDoesNothing : Obligations.LevelOfAnEmptyFrameDoesNothing :=
  ⟨fun _ => exec_level_of_empty, exec_level_of_empty (by decide) (.inl rfl)⟩

end Sys2Proof.Machine
end

section
/-! PROOFS. The packed video unpacker (spec/43_packed_unpacker.md): the order of its eight tests (R182), the fields of a
TenBitPacked group (R185), and the frames without a pixel (R190). -/

namespace Sys2Proof.Machine

open Sys2Proof.Spec

/-! ### Validation -/

/-- A failing test's error is answered and nothing else changes (R182, R236). -/
theorem exec_unpack_of_refused {s : State} (hv : unpackVerdict s.up ≠ 0) :
    exec .unpack s = .next (answered s (unpackVerdict s.up)) := by
  rcases execUnpack_cases s with ⟨e, hfails, hends⟩ | ⟨haccepts, -⟩
  · rw [unpackVerdict_eq, hfails]
    exact hends
  · exact absurd ((unpackVerdict_eq_zero_iff _).2 haccepts) hv

/-- `UNPACK` completes with the verdict on its registers as its one response: memory has no part in it (R190). -/
theorem exec_unpack_answers (s : State) :
    ∃ t, exec .unpack s = .next t ∧ t.responses = s.responses ++ [unpackVerdict s.up] := by
  rw [← responseOf_unpack]
  exact exec_answers .unpack s

theorem exec_unpack_answers_ok {s : State} (hv : unpackVerdict s.up = 0) :
    ∃ t, exec .unpack s = .next t ∧ t.responses = s.responses ++ [0] := by
  rw [← hv]
  exact exec_unpack_answers s

/-- Settles O46: the verdict is the outcome of the model's validation, refused or accepted. -/
theorem unpackValidationFollowsItsOrder : Obligations.UnpackValidationFollowsItsOrder :=
  fun _ => ⟨exec_unpack_of_refused, exec_unpack_answers_ok⟩

/-! ### The fields of a group -/

theorem tenBitField_toNat (w : Word32) (k : Nat) : (tenBitField w k).toNat = w.toNat / 2 ^ (10 * k) % 1024 := by
  rw [tenBitField_eq, BitVec.toNat_ofNat]
  omega

/-- Each of the three fields lies below bit 30 (R185). -/
theorem tenBitField_congr {w u : Word32} {k : Nat} (h : w.toNat % 2 ^ 30 = u.toNat % 2 ^ 30) (hk : k < 3) :
    tenBitField w k = tenBitField u k := by
  apply BitVec.eq_of_toNat_eq
  rw [tenBitField_toNat, tenBitField_toNat]
  interval_cases k <;> omega

/-- Every lane is made of fields alone, so bits 31:30 of both words have no part in it (R185). -/
theorem tenBitPair_congr {w0 w1 u0 u1 : Word32} (h0 : w0.toNat % 2 ^ 30 = u0.toNat % 2 ^ 30)
    (h1 : w1.toNat % 2 ^ 30 = u1.toNat % 2 ^ 30) (k : Nat) : tenBitPair w0 w1 k = tenBitPair u0 u1 k := by
  match k with
  | 0 => exact congrArg₂ Prod.mk (tenBitField_congr h0 (by decide)) (tenBitField_congr h0 (by decide))
  | 1 => exact congrArg₂ Prod.mk (tenBitField_congr h0 (by decide)) (tenBitField_congr h1 (by decide))
  | _ + 2 => exact congrArg₂ Prod.mk (tenBitField_congr h1 (by decide)) (tenBitField_congr h1 (by decide))

/-- Settles O37: the lanes take the fields of `w0` and then of `w1` in order, two at a time. -/
theorem tenBitFieldsAlternate : Obligations.TenBitFieldsAlternate := by
  intro w0 w1
  have hfirst (w : Word32) : (tenBitField w 0).toNat = w.toNat % 1024 := by simp [tenBitField_toNat]
  have hsecond (w : Word32) : (tenBitField w 1).toNat = w.toNat / 1024 % 1024 := tenBitField_toNat w 1
  have hthird (w : Word32) : (tenBitField w 2).toNat = w.toNat / 1048576 % 1024 := tenBitField_toNat w 2
  exact ⟨⟨hfirst w0, hsecond w0⟩, ⟨hthird w0, hfirst w1⟩, ⟨hsecond w1, hthird w1⟩,
    fun _ _ k h0 h1 => tenBitPair_congr h0 h1 k⟩

/-! ### Frames without a pixel -/

/-- A frame without a pixel has no group either, so in both layouts it is a fold over nothing (R190). -/
theorem exec_unpack_of_empty {s : State} (hv : unpackVerdict s.up = 0) (hempty : s.up.width = 0 ∨ s.up.height = 0) :
    exec .unpack s = .next (answered s 0) := by
  have hzero : s.up.height.toNat = 0 ∨ s.up.width.toNat = 0 :=
    hempty.symm.imp (congrArg BitVec.toNat) (congrArg BitVec.toNat)
  have hpixels : rowMajor s.up.height.toNat s.up.width.toNat = [] := rowMajor_eq_nil_iff.2 hzero
  have hgroups : rowMajor s.up.height.toNat (s.up.width.toNat / 3) = [] :=
    rowMajor_eq_nil_iff.2 (hzero.imp_right fun hw => by rw [hw])
  rw [unpackIsAFoldInProgramOrder s hv, hpixels, hgroups, List.foldl_nil, List.foldl_nil, ite_self]
  rfl

/-- The reset registers select no layout, the first test that R182 makes (R190, R261). -/
theorem unpackVerdict_reset : unpackVerdict UnpackRegs.reset = 0x0100000000000004 := by decide

theorem exec_unpack_reset : exec .unpack State.reset = .next (answered State.reset 0x0100000000000004) := by
  rw [← unpackVerdict_reset]
  exact exec_unpack_of_refused (by decide)

/-- Settles O52: an accepted frame without a pixel writes nothing, reset is refused, and the verdict on the registers is
the response whatever memory holds. -/
theorem unpackOfAnEmptyFrameDoesNothing : Obligations.UnpackOfAnEmptyFrameDoesNothing :=
  ⟨fun _ => exec_unpack_of_empty, exec_unpack_reset,
    fun s m hv => exec_unpack_answers_ok (s := { s with mem := m }) hv⟩

end Sys2Proof.Machine
end

section
/-! PROOFS. The grayscale sample pipeline (spec/44_grayscale_sample_pipeline.md): byte assembly (R210), the index of an
unsigned and of a signed sample (R211, R212), `Combine` and its widths (R215, R218), and the two kernels in sequence
(R217). -/

namespace Sys2Proof.Machine

open Sys2Proof.Spec

/-! ### Byte assembly -/

theorem sample16_native (b0 b1 : Byte) : sample16 b0 b1 false = b1 ++ b0 := rfl

theorem sample16_swapped (b0 b1 : Byte) : sample16 b0 b1 true = b0 ++ b1 := rfl

theorem byteSwap_append (hi lo : Byte) : byteSwap (hi ++ lo) = lo ++ hi := by
  rw [byteSwap, BitVec.extractLsb'_append_eq_right, BitVec.extractLsb'_append_eq_left]

/-- Settles O32: swapping the sample exchanges its two bytes, and `LevelRegs.assemble_littleEndian` is the link to the
sample that `LEVEL` reads. -/
theorem byteAssemblyHonoursTheFlag : Obligations.ByteAssemblyHonoursTheFlag := by
  intro b0 b1
  refine ⟨sample16_native b0 b1, sample16_swapped b0 b1, ?_, rfl, fun p m a h0 h1 => ?_⟩
  · rw [sample16_swapped, sample16_native, byteSwap_append]
  · rw [p.assemble_littleEndian, h0, h1]

/-! ### The index of a sample -/

theorem levelIndex_unsigned (s : Sample) : levelIndex s false = s.extractLsb' 8 8 := rfl

theorem levelIndex_unsigned_toNat (s : Sample) : (levelIndex s false).toNat = s.toNat / 256 := by
  have := s.isLt
  rw [levelIndex_unsigned, BitVec.extractLsb'_toNat, Nat.shiftRight_eq_div_pow]
  omega

/-- Settles O33: the index is a function of the sample's high byte. -/
theorem unsignedIndexIsTheHighByte : Obligations.UnsignedIndexIsTheHighByte := by
  intro s s'
  refine ⟨levelIndex_unsigned s, levelIndex_unsigned_toNat s, fun hhigh => BitVec.eq_of_toNat_eq ?_⟩
  rw [levelIndex_unsigned_toNat, levelIndex_unsigned_toNat, hhigh]

theorem signedBias_cast (s : Sample) : (signedBias s : Int) = max (s.toInt + 32767) 0 :=
  Int.toNat_of_nonneg (le_max_right ..)

/-- The biased value fits 16 bits, so its high byte is all of `t >> 8` (R212). -/
theorem signedBias_lt (s : Sample) : signedBias s < 2 ^ 16 := by
  have hs : s.toInt < 32768 := BitVec.toInt_lt
  have := signedBias_cast s
  omega

theorem levelIndex_signed_toNat (s : Sample) : (levelIndex s true).toNat = signedBias s / 256 := by
  have := signedBias_lt s
  rw [levelIndex, if_pos rfl, BitVec.toNat_ofNat, Nat.shiftRight_eq_div_pow]
  omega

/-- Flipping the sign bit is adding `2^15` to the two's complement value (R212). -/
theorem toNat_flip_sign (s : Sample) : ((s ^^^ 0x8000).toNat : Int) = s.toInt + 32768 := by
  obtain ⟨sign, low, rfl⟩ : ∃ (sign : Bool) (low : BitVec 15), s = low.cons sign :=
    ⟨_, _, (BitVec.cons_msb_setWidth s).symm⟩
  have hflip : low.cons sign ^^^ (0x8000 : Sample) = low.cons (!sign) := by
    rw [show (0x8000 : Sample) = BitVec.cons true (0 : BitVec 15) from rfl, BitVec.cons_xor_cons, Bool.xor_true]
    exact congrArg _ (BitVec.xor_zero)
  rw [hflip, BitVec.toInt_eq_msb_cond, BitVec.msb_cons, BitVec.toNat_cons', BitVec.toNat_cons']
  cases sign with
  | false => simp; omega
  | true => simp; omega

/-- The biased value in bits (R212). -/
theorem signedBias_eq_flip_sub_one (s : Sample) : signedBias s = (s ^^^ 0x8000).toNat - 1 := by
  have hbias := signedBias_cast s
  have hflip := toNat_flip_sign s
  omega

theorem signedBias_mono {s s' : Sample} (h : s.toInt ≤ s'.toInt) : signedBias s ≤ signedBias s' := by
  have hs := signedBias_cast s
  have hs' := signedBias_cast s'
  omega

/-- Settles O34: the index is the quotient of the biased value by 256, and the bias is monotone. -/
theorem signedIndexFollowsTheBias : Obligations.SignedIndexFollowsTheBias := by
  refine ⟨fun s => ⟨?_, ?_⟩, fun s s' h => ?_, by decide⟩
  · rw [levelIndex_signed_toNat, Int.natCast_ediv, signedBias_cast]
    rfl
  · rw [levelIndex_signed_toNat, signedBias_eq_flip_sub_one]
  · rw [levelIndex_signed_toNat, levelIndex_signed_toNat]
    exact Nat.div_le_div_right (signedBias_mono h)

/-! ### `Combine` -/

section
variable (p : UnpackRegs)

theorem UnpackRegs.chromaTerm_toNat (chroma : Word32) :
    (p.chromaTerm chroma).toNat = (chroma + p.off).toNat &&& p.chromaMask.toNat := by
  rw [UnpackRegs.chromaTerm, BitVec.toNat_and, BitVec.toNat_setWidth_of_le (by decide)]

theorem UnpackRegs.lumaTerm_toNat (luma : Word32) :
    (p.lumaTerm luma).toNat = (luma + p.off).toNat &&& p.lumaMask.toNat := by
  rw [UnpackRegs.lumaTerm, BitVec.toNat_and, BitVec.toNat_setWidth_of_le (by decide)]

theorem UnpackRegs.chromaTerm_lt (chroma : Word32) : (p.chromaTerm chroma).toNat < 2 ^ 16 := by
  rw [p.chromaTerm_toNat]
  exact Nat.and_lt_two_pow _ p.chromaMask.isLt

theorem UnpackRegs.lumaTerm_lt (luma : Word32) : (p.lumaTerm luma).toNat < 2 ^ 16 := by
  rw [p.lumaTerm_toNat]
  exact Nat.and_lt_two_pow _ p.lumaMask.isLt

/-- The largest masked term and the largest shift (R218). -/
theorem UnpackRegs.shifted_lumaTerm_le (luma : Word32) :
    (p.lumaTerm luma).toNat * 2 ^ p.shift.toNat ≤ 0x7FFF8000 :=
  calc (p.lumaTerm luma).toNat * 2 ^ p.shift.toNat
    _ ≤ 0xFFFF * 2 ^ 15 := Nat.mul_le_mul (Nat.le_of_lt_succ (p.lumaTerm_lt luma))
        (Nat.pow_le_pow_right (by decide) (Nat.le_of_lt_succ p.shift.isLt))
    _ = 0x7FFF8000 := rfl

/-- The shift of stage U5 loses no bit of the accumulator (R218). -/
theorem UnpackRegs.lumaTerm_shiftLeft_toNat (luma : Word32) :
    (p.lumaTerm luma <<< p.shift.toNat).toNat = (p.lumaTerm luma).toNat * 2 ^ p.shift.toNat := by
  have := p.shifted_lumaTerm_le luma
  rw [BitVec.toNat_shiftLeft, Nat.shiftLeft_eq, Nat.mod_eq_of_lt (by omega)]

theorem UnpackRegs.accumulator_toNat (chroma luma : Word32) :
    (p.accumulator chroma luma).toNat = (p.chromaTerm (p.channels chroma luma).1).toNat |||
      (p.lumaTerm (p.channels chroma luma).2).toNat * 2 ^ p.shift.toNat := by
  rw [UnpackRegs.accumulator, BitVec.toNat_or, p.lumaTerm_shiftLeft_toNat]

/-- The accumulator stays clear of bit 31 (R218). -/
theorem UnpackRegs.accumulator_le (chroma luma : Word32) : (p.accumulator chroma luma).toNat ≤ 0x7FFFFFFF := by
  have hchroma := p.chromaTerm_lt (p.channels chroma luma).1
  have hluma := p.shifted_lumaTerm_le (p.channels chroma luma).2
  rw [p.accumulator_toNat]
  exact Nat.le_of_lt_succ (Nat.or_lt_two_pow (n := 31) (by omega) (by omega))

theorem combine_toNat (chroma luma : Word32) :
    (combine p chroma luma).toNat = (p.accumulator chroma luma).toNat % 65536 := by
  rw [combine, BitVec.extractLsb'_toNat, Nat.shiftRight_zero]

/-- The cut of stage U7 acts on the shifted luma term alone (R215). -/
theorem combine_toNat_eq_or (chroma luma : Word32) :
    (combine p chroma luma).toNat = (p.chromaTerm (p.channels chroma luma).1).toNat |||
      ((p.lumaTerm (p.channels chroma luma).2).toNat * 2 ^ p.shift.toNat) % 65536 := by
  rw [combine_toNat, p.accumulator_toNat, show 65536 = 2 ^ 16 from rfl, Nat.or_mod_two_pow,
    Nat.mod_eq_of_lt (p.chromaTerm_lt _)]

/-- The offset sum of stage U3 is the exact integer sum, cut to 32 bits (R215, R219). -/
theorem UnpackRegs.field_add_off (field : Nat) :
    (BitVec.ofNat 32 field + p.off).toNat = (((field : Int) + p.offset.toInt) % 4294967296).toNat := by
  rw [UnpackRegs.off, BitVec.signExtend, ← BitVec.ofInt_natCast, ← BitVec.ofInt_add, BitVec.toNat_ofInt]
  rfl

end

/-- A 16-bit mask leaves of a 32-bit sum what it leaves of its low 16 bits (R215). -/
theorem sum_and_mask (v : Int) (mask : BitVec 16) :
    (v % 4294967296).toNat &&& mask.toNat = trunc16 v &&& mask.toNat := by
  have hlow : (v % 4294967296).toNat % 2 ^ 16 = trunc16 v := by rw [trunc16]; omega
  calc (v % 4294967296).toNat &&& mask.toNat
    _ = ((v % 4294967296).toNat &&& mask.toNat) % 2 ^ 16 :=
        (Nat.mod_eq_of_lt (Nat.and_lt_two_pow _ mask.isLt)).symm
    _ = trunc16 v &&& mask.toNat := by rw [Nat.and_mod_two_pow, hlow, Nat.mod_eq_of_lt mask.isLt]

/-- The channels after the swap, as integers (R40, R215). -/
theorem UnpackRegs.channels_ofNat (p : UnpackRegs) (chroma luma : Nat) :
    p.channels (BitVec.ofNat 32 chroma) (BitVec.ofNat 32 luma) =
      (BitVec.ofNat 32 (if p.swap = 1 then luma else chroma),
        BitVec.ofNat 32 (if p.swap = 1 then chroma else luma)) := by
  rw [UnpackRegs.channels]
  split <;> rfl

/-- The source's example, with either order of the channels: luma's byte above chroma's (R215). -/
theorem combine_example {p : UnpackRegs} (hoff : p.offset = 0) (hshift : p.shift = 8) (hluma : p.lumaMask = 0xFF)
    (hchroma : p.chromaMask = 0xFF) :
    combine p 0x10 0x20 = if p.swap = 1 then 0x1020 else 0x2010 := by
  rw [combine, UnpackRegs.accumulator, UnpackRegs.channels, UnpackRegs.chromaTerm, UnpackRegs.lumaTerm, UnpackRegs.off,
    hoff, hshift, hluma, hchroma]
  split <;> decide

/-- Settles O35: the two terms are the masked exact sums of the channels, and the cut leaves the chroma term whole. -/
theorem combineFollowsItsRule : Obligations.CombineFollowsItsRule := by
  refine ⟨fun p chroma luma _ _ => ?_, fun p hoff hshift hluma hchroma => ?_⟩
  · have hacc := p.accumulator_toNat (BitVec.ofNat 32 chroma) (BitVec.ofNat 32 luma)
    have hcut := combine_toNat_eq_or p (BitVec.ofNat 32 chroma) (BitVec.ofNat 32 luma)
    simp only [p.channels_ofNat, p.chromaTerm_toNat, p.lumaTerm_toNat, p.field_add_off, Nat.cast_ite] at hacc hcut
    refine ⟨sum_and_mask _ _, sum_and_mask _ _, ?_, ?_, hcut⟩
    · rw [← hacc]
      exact p.accumulator_le _ _
    · rw [← hacc]
      exact combine_toNat p _ _
  · rw [combine_example hoff hshift hluma hchroma]
    exact ⟨fun hswap => by rw [hswap]; rfl, fun hswap => by rw [hswap]; rfl⟩

/-- Settles O36: the offset is a signed 16-bit integer and the masks and the shift bound the rest. -/
theorem accumulatorNeverOverflows : Obligations.AccumulatorNeverOverflows := by
  intro p field luma chroma hfield
  have hlow : -32768 ≤ p.offset.toInt := BitVec.le_toInt p.offset
  have hhigh : p.offset.toInt < 32768 := BitVec.toInt_lt
  exact ⟨by omega, by omega, p.shifted_lumaTerm_le luma, p.lumaTerm_shiftLeft_toNat luma,
    p.accumulator_le chroma luma⟩

/-! ### The two kernels in sequence -/

/-- `UNPACK` on an accepted frame keeps memory canonical and leaves `LEVEL`'s registers and the table alone
(R75, R180). -/
theorem exec_unpack_keeps {s t : State} (hv : unpackVerdict s.up = 0) (hm : s.mem.wf = true)
    (ht : exec .unpack s = .next t) : t.mem.wf = true ∧ t.lv = s.lv ∧ t.lut = s.lut := by
  obtain ⟨f, hf, hreplay⟩ := unpackFrame_completes ((unpackVerdict_eq_zero_iff _).1 hv) s.mem
  obtain rfl := Host.Outcome.next.inj (ht.symm.trans (exec_unpack_of_frame ((unpackVerdict_eq_zero_iff _).1 hv) hf))
  exact ⟨Memory.replay_wf hm hreplay, rfl, rfl⟩

/-- `UNPACK` in either layout leaves `Combine` of every pair, little-endian, in its destination (R69, R216). -/
theorem exec_unpack_samples {s : State} (hv : unpackVerdict s.up = 0) (hm : s.mem.wf = true)
    (hbuf : s.up.shape.Disjoint ∨ s.up.shape.InPlace) :
    ∃ t, exec .unpack s = .next t ∧ ∀ r c, r < s.up.height.toNat → c < s.up.width.toNat →
      t.mem.read (s.up.dstAddr r c + 1) ++ t.mem.read (s.up.dstAddr r c) = unpackSampleAt s.up s.mem r c := by
  rcases (unpackVerdict_eq_zero_iff _).1 hv with h | h
  · exact unpackCombinesEveryTenBitLane s hv h.1 hm hbuf
  · exact unpackCombinesEveryInterleavedPair s hv h.1 hm hbuf

/-- `LEVEL` reading `UNPACK`'s destination buffer finds its samples where `UNPACK` put them (R217). -/
theorem LevelRegs.srcAddr_eq_dstAddr {p : LevelRegs} {q : UnpackRegs} (hbase : p.srcBase = q.dstBase)
    (hstride : p.inStride = q.outStride) (r c : Nat) : p.srcAddr r c = q.dstAddr r c := by
  rw [LevelRegs.srcAddr, UnpackRegs.dstAddr, hbase, hstride]

/-- Settles O53: the samples that `UNPACK` leaves are those that `LEVEL` assembles. -/
theorem pipelineMapsEveryPair : Obligations.PipelineMapsEveryPair := by
  intro s hup hlv hm hupBuf hlvBuf hbase hstride hwidth hheight hnative
  obtain ⟨t, ht, hsamples⟩ := exec_unpack_samples hup hm hupBuf
  obtain ⟨htm, htlv, htlut⟩ := exec_unpack_keeps hup hm ht
  obtain ⟨u, hu, hpixels⟩ := levelMapsEverySample t (htlv ▸ hlv) htm (htlv ▸ hlvBuf)
  rw [htlv, htlut, hwidth, hheight] at hpixels
  have hsample : ∀ r c, r < s.up.height.toNat → c < s.up.width.toNat →
      levelSampleAt s.lv t.mem r c = unpackSampleAt s.up s.mem r c := fun r c hr hc => by
    rw [levelSampleAt, hnative, LevelRegs.srcAddr_eq_dstAddr hbase hstride, sample16_native, hsamples r c hr hc]
  refine ⟨t, u, ht, hu, fun r c hr hc => ?_⟩
  have hpixel := hpixels r c hr hc
  rw [hsample r c hr hc] at hpixel
  exact ⟨hpixel, fun hunsigned => by rw [hpixel, hunsigned, levelIndex_unsigned]⟩

end Sys2Proof.Machine
end

section
/-! PROOFS. Errors (spec/60_exceptions.md): a command that ends with an error has no effect but its response (R235,
R236), and no response depends on what memory holds (R238). -/

namespace Sys2Proof.Machine

open Sys2Proof.Spec

/-! ### The two ways a command ends -/

/-- The status of R91 in a response OK is 0 (R231). -/
theorem okResponse_status (data : BitVec 32) : (okResponse data).extractLsb' 56 8 = 0 :=
  (BitVec.extractLsb'_append_eq_of_le (by decide)).trans BitVec.extractLsb'_append_eq_left

/-- A command raises an error, which is its whole effect, or it ends with a response OK (R231, R235, R236). -/
theorem exec_raises_or_answers_ok (i : Instr) (s : State) :
    (∃ e : CommandError, exec i s = .next (s.respond e.response)) ∨
    ∃ t data, exec i s = .next t ∧ t.responses = s.responses ++ [okResponse data] := by
  cases i with
  | wrreg n v =>
    rw [exec_wrreg]
    rcases execWrreg_cases n v s with ⟨e, hraises⟩ | ⟨r, -, -, hwrites⟩
    · exact .inl ⟨e, hraises⟩
    · exact .inr ⟨_, 0, hwrites, by rw [State.respond_responses, State.configure_responses]; rfl⟩
  | rdreg n =>
    rw [exec_rdreg]
    rcases execRdreg_cases n s with ⟨e, -, hraises⟩ | ⟨r, -, hreads⟩
    · exact .inl ⟨e, hraises⟩
    · exact .inr ⟨_, s.readReg r, hreads, rfl⟩
  | rdlut index => exact .inr ⟨_, _, exec_rdlut index s, rfl⟩
  | lutbld => exact .inr ⟨_, 0, exec_lutbld s, rfl⟩
  | level =>
    rw [exec_level]
    rcases execLevel_cases s with ⟨e, -, hraises⟩ | ⟨-, f, -, -, hcompletes⟩
    · exact .inl ⟨e, hraises⟩
    · exact .inr ⟨_, 0, hcompletes, rfl⟩
  | unpack =>
    rw [exec_unpack]
    rcases execUnpack_cases s with ⟨e, -, hraises⟩ | ⟨-, f, -, -, hcompletes⟩
    · exact .inl ⟨e, hraises⟩
    · exact .inr ⟨_, 0, hcompletes, rfl⟩

/-- An illegal word is one more way to raise an error (R96). -/
theorem runCommand_raises_or_answers_ok (w : CommandWord) (s : State) :
    (∃ e : CommandError, runCommand w s = .next (s.respond e.response)) ∨
    ∃ t data, runCommand w s = .next t ∧ t.responses = s.responses ++ [okResponse data] := by
  rcases decode_cases w with ⟨i, hi, -⟩ | ⟨-, -, hillegal⟩
  · rw [runCommand_of_decode hi]
    exact exec_raises_or_answers_ok i s
  · exact .inl ⟨_, runCommand_of_illegalWord hillegal s⟩

/-- Settles O14: a raised error is the command's whole effect, and every other response has status OK. -/
theorem failedCommandChangesNothing : Obligations.FailedCommandChangesNothing := by
  intro s w rest hhost
  rw [step_command hhost]
  rcases runCommand_raises_or_answers_ok w { s with host := rest } with ⟨e, hraises⟩ | ⟨t, data, hends, hok⟩
  · exact ⟨_, e.response, hraises, rfl, fun _ => rfl⟩
  · exact ⟨t, okResponse data, hends, hok, fun hstatus => absurd (okResponse_status data) hstatus⟩

/-! ### What a response is computed from -/

/-- The tests of R234 and the data of R91 are taken from the word, the registers and the table alone (R238). -/
theorem responseOf_withMem (s : State) (m : Memory) (w : CommandWord) :
    responseOf { s with mem := m } w = responseOf s w := rfl

/-- Settles O15: both runs append `responseOf`, in which memory has no part. -/
theorem responseIgnoresMemory : Obligations.ResponseIgnoresMemory := by
  intro s m w
  obtain ⟨t, ht, htresp⟩ := runCommand_answers w s
  obtain ⟨u, hu, huresp⟩ := runCommand_answers w { s with mem := m }
  rw [responseOf_withMem] at huresp
  exact ⟨t, u, ht, hu, htresp.trans huresp.symm⟩

end Sys2Proof.Machine
end

section
/-! PROOFS. Reset (spec/70_reset_and_hazards.md): what it leaves at power-on and between commands (R261, R262), and a
command that it cuts short (R260, U9). -/

namespace Sys2Proof.Machine

/-! ### Registers and table after reset -/

@[simp] theorem State.afterReset_readReg (s : State) (r : Reg) : s.afterReset.readReg r = 0 := by
  cases r <;> rfl

theorem State.afterReset_lut_read (s : State) (i : Byte) : s.afterReset.lut.read i = 0 := by
  rw [State.afterReset_lut, Table.reset_read]

theorem State.afterReset_lut_eq_buildLut (s : State) : s.afterReset.lut = buildLut 0 0 0 0 :=
  Table.reset_eq_table

/-- Power-on leaves what a reset between commands leaves: a further reset finds nothing to clear (R261). -/
theorem State.reset_afterReset : State.reset.afterReset = State.reset := rfl

/-- Settles O8: the state after power-on and the state after the step are both an `afterReset`. -/
theorem resetZeroesRegistersAndTable : Obligations.ResetZeroesRegistersAndTable := by
  unfold Obligations.ResetZeroesRegistersAndTable
  rw [← State.reset_afterReset]
  refine ⟨State.afterReset_readReg _, State.afterReset_lut_read _, State.afterReset_lut_eq_buildLut _, ?_⟩
  intro s rest hhost
  exact ⟨_, step_reset hhost, State.afterReset_readReg _, State.afterReset_lut_read _,
    State.afterReset_lut_eq_buildLut _, State.afterReset_mem _⟩

/-! ### Reset during a command -/

/-- What the host still does has no part in the writes of a command (R67). -/
theorem commandStores_withHost (w : CommandWord) (s : State) (rest : List HostAction) :
    commandStores w { s with host := rest } = commandStores w s := rfl

/-- Reset and the replacement of memory by the writes already made act on different parts of the state. -/
theorem State.afterReset_withMem (s : State) (m : Memory) :
    { s.afterReset with mem := m } = State.afterReset { s with mem := m } := rfl

/-- Settles O9: the completed command replays all of its stores (`commandStores_spec`), and the abandoned one the first
`k` of the same list (`resetDuring_eq_replay`), before registers and table are cleared. -/
theorem resetAbandonsTheCommandInFlight : Obligations.ResetAbandonsTheCommandInFlight := by
  intro s w k rest hhost
  obtain ⟨stores, u, hstores, hcompletes, hall⟩ := commandStores_spec w { s with host := rest }
  obtain ⟨made, m, hmade, hfirst, habandons⟩ := resetDuring_eq_replay w k { s with host := rest }
  obtain rfl : stores = made := Option.some.inj (hstores.symm.trans hmade)
  rw [commandStores_withHost] at hstores
  rw [State.afterReset_withMem] at habandons
  exact ⟨_, u, stores, (step_resetDuring hhost).trans habandons, hcompletes, hstores, hall, hfirst,
    State.afterReset_readReg _, State.afterReset_lut_read _, rfl, rfl⟩

end Sys2Proof.Machine
end
